-- ==== Sys2Proof/Word.lean ====
section
/-! DEFINITION. The word types of the block: bytes of memory and of the instruction stream, and the
16-bit values every push moves (00_scope.md R13, R15; 10_state.md R22). -/

namespace Sys2Proof

/-- A byte of memory or of the instruction stream (R46, R63). -/
abbrev Byte := BitVec 8

/-- A 16-bit value: a register, an offset, a pushed word. Arithmetic wraps modulo 2^16 (R13, R15). -/
abbrev Word := BitVec 16

end Sys2Proof
end

