-- ==== Sys2Proof/Syntax.lean ====
section
/-! DEFINITION. The registers' names, the operand forms and the instructions: one constructor of `Instr`
per row of spec/opcode_table.json. -/

namespace Sys2Proof

/-- The general-purpose registers, in the normative order of 10_state.md R20. -/
inductive Gpr where
  | ax | cx | dx | bx | sp | bp | si | di
  deriving DecidableEq, Repr

/-- The segment registers, in the normative order of 10_state.md R28. -/
inductive SegReg where
  | es | cs | ss | ds
  deriving DecidableEq, Repr

/-- A register identifier of the register file port: two disjoint ranges and the flags
pseudo-register, which no register field can select (R9, R30). -/
inductive RegId where
  | gpr (g : Gpr)
  | seg (r : SegReg)
  | flags
  deriving DecidableEq, Repr

/-- The four handlers the dispatch table routes to (00_scope.md R8). -/
inductive Handler where
  | pushRm | pushR | pushSr | pushf
  deriving DecidableEq, Repr

/-- The fields of a ModRM byte (30_encoding.md R67); `reg` is the source's `raw_reg()`. -/
structure ModRm where
  mod : BitVec 2
  reg : BitVec 3
  rm  : BitVec 3
  deriving DecidableEq, Repr

/-- The displacement that follows the ModRM byte: none, one byte or two (30_encoding.md R70). -/
inductive Disp where
  | none
  | d8  (d : Byte)
  | d16 (d : Word)
  deriving DecidableEq, Repr

/-- The operand the resolver produces: a general-purpose register, or a memory word named by a segment
register and a 16-bit offset (40_operand_resolution.md R81). -/
inductive Operand where
  | reg (g : Gpr)
  | mem (seg : SegReg) (off : Word)
  deriving DecidableEq, Repr

/-- The instructions, one constructor per row of spec/opcode_table.json.

`pre` is the accepted segment-override prefix, if any (30_encoding.md R72): every row may carry one; only
the memory forms of `push r/m` give it an effect, and it counts one byte of length (R75).

The five `push r/m` rows carry `reg`, the ModRM register field the decoder port hands the handler
(00_scope.md R8). It is 6 in every well-formed instruction; a term with another value is what a defective
dispatch hands over, and the handler stops on it (R76, R96; log entry 13). -/
inductive Instr where
  | pushAX (pre : Option SegReg)
  | pushCX (pre : Option SegReg)
  | pushDX (pre : Option SegReg)
  | pushBX (pre : Option SegReg)
  | pushSP (pre : Option SegReg)
  | pushBP (pre : Option SegReg)
  | pushSI (pre : Option SegReg)
  | pushDI (pre : Option SegReg)
  | pushES (pre : Option SegReg)
  | pushCS (pre : Option SegReg)
  | pushSS (pre : Option SegReg)
  | pushDS (pre : Option SegReg)
  | pushf  (pre : Option SegReg)
  /-- `push r/m`, `mod = 11`. -/
  | pushRmRegister (pre : Option SegReg) (reg rm : BitVec 3)
  /-- `push r/m`, `mod = 00, rm = 110`: the displacement is the whole offset. -/
  | pushRmDisp16 (pre : Option SegReg) (reg : BitVec 3) (disp : Word)
  /-- `push r/m`, `mod = 00, rm != 110`. -/
  | pushRmBaseIndex (pre : Option SegReg) (reg rm : BitVec 3)
  /-- `push r/m`, `mod = 01`. -/
  | pushRmBaseIndexDisp8 (pre : Option SegReg) (reg rm : BitVec 3) (disp : Byte)
  /-- `push r/m`, `mod = 10`. -/
  | pushRmBaseIndexDisp16 (pre : Option SegReg) (reg rm : BitVec 3) (disp : Word)
  deriving DecidableEq, Repr

end Sys2Proof
end

