-- ==== Sys2Proof/WellFormed.lean ====
section
/-! DEFINITION. Which terms of `Instr` are instructions: those the encodings of 30_encoding.md can hold. -/

namespace Sys2Proof

/-- Two checks. Every `push r/m` row has ModRM register field 6 (30_encoding.md R68, R76). The
`[base/index]` row does not have `rm = 110`, whose words are the `[disp16]` row's (R70, R74). Every other
field is total over its width (R78). -/
def Instr.wellFormed : Instr → Bool
  | .pushAX _ | .pushCX _ | .pushDX _ | .pushBX _ => true
  | .pushSP _ | .pushBP _ | .pushSI _ | .pushDI _ => true
  | .pushES _ | .pushCS _ | .pushSS _ | .pushDS _ => true
  | .pushf _ => true
  | .pushRmRegister _ reg _ => reg == 6
  | .pushRmDisp16 _ reg _ => reg == 6
  | .pushRmBaseIndex _ reg rm => reg == 6 && rm != 6
  | .pushRmBaseIndexDisp8 _ reg _ _ => reg == 6
  | .pushRmBaseIndexDisp16 _ reg _ _ => reg == 6

end Sys2Proof
end

