-- ==== Sys2Proof/Decode.lean ====
section
/-! DEFINITION. From bytes to instructions and back (30_encoding.md): the bit fields, the register tables,
the reference dispatch, the decoder, the instruction lengths, and the encoder written from the same tables. -/

namespace Sys2Proof

/-! ### Bit fields and register tables -/

/-- `opcode[2:0]`, the register field of `push r` (R64, R100). -/
def opcodeGprField (opcode : Byte) : BitVec 3 := opcode.extractLsb' 0 3

/-- `opcode[4:3]`, the segment register field of `push sr` (R64, R103). -/
def opcodeSegField (opcode : Byte) : BitVec 2 := opcode.extractLsb' 3 2

/-- The ModRM layout: `mod = modrm[7:6]`, `reg = modrm[5:3]`, `rm = modrm[2:0]` (R67). -/
def modRmOfByte (b : Byte) : ModRm where
  mod := b.extractLsb' 6 2
  reg := b.extractLsb' 3 3
  rm  := b.extractLsb' 0 3

/-- The byte that holds the three ModRM fields (R67). -/
def modRmByte (m : ModRm) : Byte := m.mod ++ m.reg ++ m.rm

/-- "the fixed order (AX, CX, DX, BX, SP, BP, SI, DI)" (10_state.md R20), as the explicit table the
source asks for. -/
def gprOfIndex (k : BitVec 3) : Gpr :=
  match k.toFin with
  | 0 => .ax
  | 1 => .cx
  | 2 => .dx
  | 3 => .bx
  | 4 => .sp
  | 5 => .bp
  | 6 => .si
  | 7 => .di

/-- The fixed order "(ES, CS, SS, DS)" (10_state.md R28). -/
def segOfIndex (k : BitVec 2) : SegReg :=
  match k.toFin with
  | 0 => .es
  | 1 => .cs
  | 2 => .ss
  | 3 => .ds

/-- The 16-bit value whose low byte comes first: `d16 = byte2 ++ byte1` (R70). -/
def wordOfBytes (lo hi : Byte) : Word := hi ++ lo

/-- `v[7:0]`. -/
def lowByte (v : Word) : Byte := v.extractLsb' 0 8

/-- `v[15:8]`. -/
def highByte (v : Word) : Byte := v.extractLsb' 8 8

/-! ### Prefixes -/

/-- The accepted segment-override prefixes: 0x26 (ES), 0x2E (CS), 0x36 (SS), 0x3E (DS) (R72, R86). -/
def overrideOfByte (b : Byte) : Option SegReg :=
  if b = 0x26 then some .es
  else if b = 0x2E then some .cs
  else if b = 0x36 then some .ss
  else if b = 0x3E then some .ds
  else none

/-- The byte of a segment-override prefix (R72). -/
def overrideByte : SegReg → Byte
  | .es => 0x26
  | .cs => 0x2E
  | .ss => 0x36
  | .ds => 0x3E

/-- The prefix bytes of R72: the four segment overrides, LOCK (0xF0) and the repeats (0xF2, 0xF3). Which
reason a bad one is refused under is log entry 7. -/
def isPrefixByte (b : Byte) : Bool :=
  (overrideOfByte b).isSome || b == 0xF0 || b == 0xF2 || b == 0xF3

/-! ### Dispatch -/

/-- The reference dispatch table (R73): `reg` is `modrm[5:3]`, looked at for opcode 0xFF only.
PRESUMED, the spec's general knowledge: log entry 10. -/
def dispatch (opcode : Byte) (reg : BitVec 3) : Option Handler :=
  if opcode.extractLsb' 3 5 = 0b01010 then some .pushR
  else if opcode.extractLsb' 5 3 = 0b000 ∧ opcode.extractLsb' 0 3 = 0b110 then some .pushSr
  else if opcode = 0x9C then some .pushf
  else if opcode = 0xFF ∧ reg = 6 then some .pushRm
  else none

/-! ### Decoding -/

/-- Why the decoder gives no instruction. The first two are the refusal reasons of R77; the third says
that the bytes end before the instruction does. -/
inductive DecodeError where
  | notPushFamily
  | unsupportedPrefix
  | needsMoreBytes
  deriving DecidableEq, Repr

/-- The `push r` row of register index `k` (R65). -/
def pushRRow (k : BitVec 3) (pre : Option SegReg) : Instr :=
  match gprOfIndex k with
  | .ax => .pushAX pre
  | .cx => .pushCX pre
  | .dx => .pushDX pre
  | .bx => .pushBX pre
  | .sp => .pushSP pre
  | .bp => .pushBP pre
  | .si => .pushSI pre
  | .di => .pushDI pre

/-- The `push sr` row of segment register index `k` (R66). -/
def pushSrRow (k : BitVec 2) (pre : Option SegReg) : Instr :=
  match segOfIndex k with
  | .es => .pushES pre
  | .cs => .pushCS pre
  | .ss => .pushSS pre
  | .ds => .pushDS pre

/-- The displacement of a `push r/m` whose ModRM byte is read (R70): `mod = 00, rm = 110` is tested
before the general `mod = 00` case (R74). -/
def decodeRm (pre : Option SegReg) (m : ModRm) (rest : List Byte) :
    Except DecodeError (Instr × List Byte) :=
  if m.mod = 0b11 then .ok (.pushRmRegister pre m.reg m.rm, rest)
  else if m.mod = 0b00 ∧ m.rm = 0b110 then
    match rest with
    | lo :: hi :: rest' => .ok (.pushRmDisp16 pre m.reg (wordOfBytes lo hi), rest')
    | _ => .error .needsMoreBytes
  else if m.mod = 0b00 then .ok (.pushRmBaseIndex pre m.reg m.rm, rest)
  else if m.mod = 0b01 then
    match rest with
    | d :: rest' => .ok (.pushRmBaseIndexDisp8 pre m.reg m.rm d, rest')
    | _ => .error .needsMoreBytes
  else
    match rest with
    | lo :: hi :: rest' =>
      .ok (.pushRmBaseIndexDisp16 pre m.reg m.rm (wordOfBytes lo hi), rest')
    | _ => .error .needsMoreBytes

/-- The instruction that starts at its opcode byte, `pre` being the prefix read before it (R63, R73). A
prefix byte here is a second prefix, or one the decoder does not accept (R72). -/
def decodeOpcode (pre : Option SegReg) (bytes : List Byte) :
    Except DecodeError (Instr × List Byte) :=
  match bytes with
  | [] => .error .needsMoreBytes
  | op :: rest =>
    if isPrefixByte op then .error .unsupportedPrefix
    else if op = 0xFF then
      match rest with
      | [] => .error .needsMoreBytes
      | b :: rest' =>
        match dispatch op (modRmOfByte b).reg with
        | some .pushRm => decodeRm pre (modRmOfByte b) rest'
        | _ => .error .notPushFamily
    else
      match dispatch op 0 with
      | some .pushR => .ok (pushRRow (opcodeGprField op) pre, rest)
      | some .pushSr => .ok (pushSrRow (opcodeSegField op) pre, rest)
      | some .pushf => .ok (.pushf pre, rest)
      | _ => .error .notPushFamily

/-- The decoder, total on any bytes: the instruction the bytes begin with and the bytes after it. At
most one segment-override prefix is accepted (R63, R72). -/
def decode (bytes : List Byte) : Except DecodeError (Instr × List Byte) :=
  match bytes with
  | [] => .error .needsMoreBytes
  | b :: rest =>
    match overrideOfByte b with
    | some r => decodeOpcode (some r) rest
    | none => decodeOpcode none (b :: rest)

/-! ### Lengths -/

/-- "add 1 for an accepted segment-override prefix" (R75). -/
def preLength : Option SegReg → Nat
  | none => 0
  | some _ => 1

/-- The length of an instruction in bytes, its prefix included (R75). -/
def instrLength : Instr → Nat
  | .pushAX pre | .pushCX pre | .pushDX pre | .pushBX pre => preLength pre + 1
  | .pushSP pre | .pushBP pre | .pushSI pre | .pushDI pre => preLength pre + 1
  | .pushES pre | .pushCS pre | .pushSS pre | .pushDS pre => preLength pre + 1
  | .pushf pre => preLength pre + 1
  | .pushRmRegister pre _ _ => preLength pre + 2
  | .pushRmDisp16 pre _ _ => preLength pre + 4
  | .pushRmBaseIndex pre _ _ => preLength pre + 2
  | .pushRmBaseIndexDisp8 pre _ _ _ => preLength pre + 3
  | .pushRmBaseIndexDisp16 pre _ _ _ => preLength pre + 4

/-- The longest instruction: a prefix, opcode, ModRM and two displacement bytes (R63, R75). -/
def maxInstrLength : Nat := 5

/-! ### Encoding -/

/-- The prefix byte, where there is one (R63, R72). -/
def preBytes : Option SegReg → List Byte
  | none => []
  | some r => [overrideByte r]

/-- The bytes of an instruction, from the encodings of R65, R66, R68, R69 and the displacements of R70. -/
def encode : Instr → List Byte
  | .pushAX pre => preBytes pre ++ [0x50]
  | .pushCX pre => preBytes pre ++ [0x51]
  | .pushDX pre => preBytes pre ++ [0x52]
  | .pushBX pre => preBytes pre ++ [0x53]
  | .pushSP pre => preBytes pre ++ [0x54]
  | .pushBP pre => preBytes pre ++ [0x55]
  | .pushSI pre => preBytes pre ++ [0x56]
  | .pushDI pre => preBytes pre ++ [0x57]
  | .pushES pre => preBytes pre ++ [0x06]
  | .pushCS pre => preBytes pre ++ [0x0E]
  | .pushSS pre => preBytes pre ++ [0x16]
  | .pushDS pre => preBytes pre ++ [0x1E]
  | .pushf pre => preBytes pre ++ [0x9C]
  | .pushRmRegister pre reg rm => preBytes pre ++ [0xFF, modRmByte ⟨0b11, reg, rm⟩]
  | .pushRmDisp16 pre reg d =>
    preBytes pre ++ [0xFF, modRmByte ⟨0b00, reg, 0b110⟩, lowByte d, highByte d]
  | .pushRmBaseIndex pre reg rm => preBytes pre ++ [0xFF, modRmByte ⟨0b00, reg, rm⟩]
  | .pushRmBaseIndexDisp8 pre reg rm d => preBytes pre ++ [0xFF, modRmByte ⟨0b01, reg, rm⟩, d]
  | .pushRmBaseIndexDisp16 pre reg rm d =>
    preBytes pre ++ [0xFF, modRmByte ⟨0b10, reg, rm⟩, lowByte d, highByte d]

/-! ### The opcode table's numbering -/

/-- The bytes of an instruction that spec/opcode_table.json numbers as `w`, up to the longest one. The
table reads the one or two bytes its `match` covers as ONE number, the first byte most significant
(30_encoding.md, opening): the opcode is bits 7..0 of a one-byte row, and bits 15..8 of a two-byte row
with its ModRM byte in bits 7..0. Bytes after those count on from bit 16. Bits from `nbits` up are 0.
DEDUCED, log entry 12. -/
def tableBytes (nbits w : Nat) : List Byte :=
  let v := w % 2 ^ nbits
  if nbits ≤ 8 then [BitVec.ofNat 8 v, 0, 0, 0, 0]
  else [BitVec.ofNat 8 (v >>> 8), BitVec.ofNat 8 v, BitVec.ofNat 8 (v >>> 16),
    BitVec.ofNat 8 (v >>> 24), BitVec.ofNat 8 (v >>> 32)]

/-- What the decoder reads from the table's word `w` of `nbits` bits. -/
def decodeTableWord (nbits w : Nat) : Option Instr :=
  match decode (tableBytes nbits w) with
  | .ok (i, _) => some i
  | .error _ => none

end Sys2Proof
end

