-- ==== Sys2Proof/Config.lean ====
section
/-! DEFINITION. The parameters one implementation of the block fixes (00_scope.md R13): the physical
address width and the memory subsystem's admission predicate. They are plain data, held in State and
changed by no step, so that a claim about every state is a claim about every value of them. -/

namespace Sys2Proof

/-- The memory subsystem fails every access of `size` bytes whose physical address lies in `lo` to `hi`,
both ends included (20_memory.md R45). -/
structure RefusedRange where
  lo   : Nat
  hi   : Nat
  size : Nat
  deriving DecidableEq, Repr

/-- The parameters of a model instance (R13, R27): `paWidth` is `PA_WIDTH` (R42); `refuses` is the
predicate `mem_admits` written as data, the list of the accesses it answers false for (R45). The address
space is finite, so every predicate has such a list: `Laws.every_mem_admits_is_a_config`. -/
structure Config where
  paWidth : Nat
  refuses : List RefusedRange
  deriving DecidableEq, Repr

/-- The spec's reference values: `PA_WIDTH = 20` (R42, D3) and every address admitted (D7). -/
def Config.reference : Config where
  paWidth := 20
  refuses := []

/-- "a natural number at least 1" (R42). -/
abbrev Config.wf (c : Config) : Prop := 1 ≤ c.paWidth

end Sys2Proof
end

