-- ==== Sys2Proof/Machine/State.lean ====
section
/-! DEFINITION. The state the spec gives the block and its collaborators, the reasons a step can stop, and
the state at launch. -/

namespace Sys2Proof.Machine

/-- The register file: eight general-purpose registers (10_state.md R20), four segment registers (R28)
and FLAGS (R26), 16 bits each. -/
structure RegFile where
  ax : Word
  cx : Word
  dx : Word
  bx : Word
  sp : Word
  bp : Word
  si : Word
  di : Word
  es : Word
  cs : Word
  ss : Word
  ds : Word
  flags : Word
  deriving DecidableEq, Repr

/-- Memory: bytes at physical addresses (R31, R46), listed in one canonical form (`Memory.wf`). -/
abbrev Memory := List Host.Cell

/-- What a fault records (60_exceptions.md R112 to R114): the cause and its info. -/
inductive FaultCause where
  | contractViolation (opcode : Byte) (rawReg : BitVec 3)
  | memRead (pa size : Nat)
  | memWrite (pa size : Nat)
  deriving DecidableEq, Repr

/-- Why the model gives an input no meaning: the reasons of R117, and a fetch the memory subsystem does
not perform (log entry 6). -/
inductive RefusalReason where
  | notPushFamily
  | unsupportedPrefix
  | ipWrap
  | fetchNotAdmitted (pa : Nat)
  deriving DecidableEq, Repr

/-- The state. `regs`, `mem` and the instruction pointer `ip` belong to the register file, the memory
subsystem and the sequencer (R20 to R31); `cfg` holds the parameters no instruction changes (R27);
`fault` and `refused` are the bookkeeping of R34, set by an outcome and never cleared by a step. -/
structure State where
  regs    : RegFile
  ip      : Word
  mem     : Memory
  cfg     : Config
  fault   : Option FaultCause
  refused : Option RefusalReason
  deriving DecidableEq, Repr

/-- A fault of the block, terminal (R17, R120). Each carries what it records and `left`, the state at the
fault, whose `fault` mark is set (log entry 3). Stopping here is safe: the spec gives no step after a fault. -/
inductive Fault where
  /-- Cause code 1, a programmer error. Raised by the `PUSH_RM` handler when the ModRM register field is
  not 6; `left` has every register and byte as before (R96, R112). Safe. -/
  | contractViolation (opcode : Byte) (rawReg : BitVec 3) (left : State)
  /-- Cause code 2, guest-visible. Raised by the memory forms of `push r/m` when the operand read is not
  admitted; `left` has every register and byte as before (R89, R113). Safe. -/
  | memReadFault (pa size : Nat) (left : State)
  /-- Cause code 3, guest-visible. Raised by every push when the stack write is not admitted; `left` has
  SP decremented and memory as before (R114). Safe. -/
  | memWriteFault (pa size : Nat) (left : State)
  deriving DecidableEq, Repr

/-- An input the model gives no meaning (R17, R117). `left` is the state unchanged but for its `refused`
mark. Each is safe: a claim about what follows becomes unprovable, none false. -/
inductive Refusal where
  /-- An instruction of the table without a meaning in `exec`: no arm answers it. Safe. -/
  | notModelled (mnemonic : String)
  /-- The bytes at CS:IP are no push (R77). Raised by `step`. Safe. -/
  | notPushFamily (left : State)
  /-- The bytes at CS:IP begin with a prefix the decoder does not accept, or two (R72). Raised by
  `step`. Safe. -/
  | unsupportedPrefix (left : State)
  /-- The program would run past IP = 0xFFFF (R137). Raised by `launch`. Safe. -/
  | ipWrap (left : State)
  /-- The memory subsystem does not perform the fetch of the byte at `pa` (R45): what the sequencer
  does then is not in the spec (log entry 6). Raised by `step`. Safe. -/
  | fetchNotAdmitted (pa : Nat) (left : State)
  deriving DecidableEq, Repr

/-- Every register at zero: the spec gives no reset value (R35) and says to assume neither zero nor the
8086's (91_not_in_source.md N4). DESIGN CHOICE, unsafe: log entry 1. -/
def RegFile.zero : RegFile where
  ax := 0
  cx := 0
  dx := 0
  bx := 0
  sp := 0
  bp := 0
  si := 0
  di := 0
  es := 0
  cs := 0
  ss := 0
  ds := 0
  flags := 0

/-- The state the host starts from: memory with nothing listed, the reference parameters, the fault
record and the refusal mark clear (R35, R132). The register values are log entry 1's, the parameters log
entry 4's. -/
def State.reset : State where
  regs := RegFile.zero
  ip := 0
  mem := []
  cfg := Config.reference
  fault := none
  refused := none

end Sys2Proof.Machine
end

