-- ==== Sys2Proof/Machine/Ops.lean ====
section
/-! DEFINITION. The named operations every instruction is written over: the register file port, memory,
the physical address translator, raising a fault, and the steps a push shares. -/

namespace Sys2Proof.Machine

/-! ### The register file port (00_scope.md R9) -/

/-- `get(id)`: a 16-bit value, with no failure case (R38). -/
def readReg (r : RegFile) : RegId → Word
  | .gpr .ax => r.ax
  | .gpr .cx => r.cx
  | .gpr .dx => r.dx
  | .gpr .bx => r.bx
  | .gpr .sp => r.sp
  | .gpr .bp => r.bp
  | .gpr .si => r.si
  | .gpr .di => r.di
  | .seg .es => r.es
  | .seg .cs => r.cs
  | .seg .ss => r.ss
  | .seg .ds => r.ds
  | .flags => r.flags

/-- `set(id, v)`. No register is hard-wired (R24). -/
def writeReg (r : RegFile) (id : RegId) (v : Word) : RegFile :=
  match id with
  | .gpr .ax => { r with ax := v }
  | .gpr .cx => { r with cx := v }
  | .gpr .dx => { r with dx := v }
  | .gpr .bx => { r with bx := v }
  | .gpr .sp => { r with sp := v }
  | .gpr .bp => { r with bp := v }
  | .gpr .si => { r with si := v }
  | .gpr .di => { r with di := v }
  | .seg .es => { r with es := v }
  | .seg .cs => { r with cs := v }
  | .seg .ss => { r with ss := v }
  | .seg .ds => { r with ds := v }
  | .flags => { r with flags := v }

/-! ### Memory (20_memory.md R46) -/

/-- What an address with no listed byte reads as. The spec gives no launch contents (R35). DESIGN CHOICE,
unsafe: log entry 2. -/
def unlistedByte : Byte := 0

/-- The canonical form: addresses strictly rising, and no byte listed that an unlisted address would read
as. Equal memories are then equal lists. -/
abbrev Memory.wf (m : Memory) : Prop :=
  m.Pairwise (fun c d => c.1 < d.1) ∧ ∀ c ∈ m, c.2 ≠ unlistedByte

/-- Every listed address is a physical address of a `paWidth`-bit space (R31). -/
abbrev Memory.inRange (m : Memory) (paWidth : Nat) : Prop := ∀ c ∈ m, c.1 < 2 ^ paWidth

/-- The byte at physical address `a`. -/
def Memory.read : Memory → Nat → Byte
  | [], _ => unlistedByte
  | (b, v) :: m, a => if a = b then v else Memory.read m a

/-- The cell of a byte, left out where it is what an unlisted address reads as. -/
def Memory.cell (a : Nat) (v : Byte) (m : Memory) : Memory :=
  if v = unlistedByte then m else (a, v) :: m

/-- Memory with the byte `v` at physical address `a`, in canonical form. -/
def Memory.write : Memory → Nat → Byte → Memory
  | [], a, v => Memory.cell a v []
  | (b, w) :: m, a, v =>
    if a < b then Memory.cell a v ((b, w) :: m)
    else if a = b then Memory.cell a v m
    else (b, w) :: Memory.write m a v

/-- `mem_admits(pa, n)`: whether the memory subsystem performs an access of `n` bytes at `pa` (R45). -/
def memAdmits (c : Config) (pa n : Nat) : Bool :=
  decide (pa < 2 ^ c.paWidth) &&
    c.refuses.all fun r => !(decide (r.lo ≤ pa) && decide (pa ≤ r.hi) && r.size == n)

/-- The address of a word's high byte, `(pa + 1) mod 2^PA_WIDTH` (R49). -/
def nextPa (c : Config) (pa : Nat) : Nat := (pa + 1) % 2 ^ c.paWidth

/-- The bytes `MemWrite(pa, 2, v)` stores, low byte first (R47; log entry 14). -/
def storeWord (c : Config) (m : Memory) (pa : Nat) (v : Word) : Memory :=
  Memory.write (Memory.write m pa (lowByte v)) (nextPa c pa) (highByte v)

/-- The word at `pa`: `mem[(pa + 1) mod 2^PA_WIDTH] ++ mem[pa]` (R48). -/
def loadWord (c : Config) (m : Memory) (pa : Nat) : Word :=
  wordOfBytes (Memory.read m pa) (Memory.read m (nextPa c pa))

/-- `MemRead(pa, 2)`: the word, or the fault of a read that is not admitted; memory is not changed
(R48). -/
def memRead (s : State) (pa : Nat) : Except FaultCause Word :=
  if memAdmits s.cfg pa 2 then .ok (loadWord s.cfg s.mem pa) else .error (.memRead pa 2)

/-- `MemWrite(pa, 2, v)`: the state with the word written, or the fault of a write that is not admitted,
with nothing written (R47). -/
def memWrite (s : State) (pa : Nat) (v : Word) : Except FaultCause State :=
  if memAdmits s.cfg pa 2 then .ok { s with mem := storeWord s.cfg s.mem pa v }
  else .error (.memWrite pa 2)

/-! ### The physical address translator (20_memory.md R39) -/

/-- `Phys(S, O) = ((zext(S) << 4) + zext(O)) mod 2^PA_WIDTH`, summed on unbounded naturals; a pure
function that raises nothing (R39, R40). -/
def phys (c : Config) (seg off : Word) : Nat := (seg.toNat * 16 + off.toNat) % 2 ^ c.paWidth

/-! ### Faults and refusals -/

/-- The cause code of a fault (60_exceptions.md R130). -/
def FaultCause.code : FaultCause → Nat
  | .contractViolation _ _ => 1
  | .memRead _ _ => 2
  | .memWrite _ _ => 3

/-- The two classes callers must be able to tell apart (R118). -/
def FaultCause.guestVisible : FaultCause → Bool
  | .contractViolation _ _ => false
  | .memRead _ _ => true
  | .memWrite _ _ => true

/-- The fault of cause `c` with the state `left` behind it. -/
def faultOf (c : FaultCause) (left : State) : Fault :=
  match c with
  | .contractViolation opcode rawReg => .contractViolation opcode rawReg left
  | .memRead pa size => .memReadFault pa size left
  | .memWrite pa size => .memWriteFault pa size left

/-- What a fault records. -/
def Fault.cause : Fault → FaultCause
  | .contractViolation opcode rawReg _ => .contractViolation opcode rawReg
  | .memReadFault pa size _ => .memRead pa size
  | .memWriteFault pa size _ => .memWrite pa size

/-- The state a fault leaves (R112 to R114). -/
def Fault.left : Fault → State
  | .contractViolation _ _ left => left
  | .memReadFault _ _ left => left
  | .memWriteFault _ _ left => left

/-- Raising a fault, the one way any does: the block performs no trap entry, it saves nothing and jumps
nowhere; the state at the fault is kept with its cause (R34, R120). There is no return from a fault
(R121), so no operation stands beside this one. -/
def raise (c : FaultCause) (s : State) : Host.Outcome State Fault Refusal :=
  .fault (faultOf c { s with fault := some c })

/-- The refusal of reason `r` with the state `left` behind it. -/
def refusalOf (r : RefusalReason) (left : State) : Refusal :=
  match r with
  | .notPushFamily => .notPushFamily left
  | .unsupportedPrefix => .unsupportedPrefix left
  | .ipWrap => .ipWrap left
  | .fetchNotAdmitted pa => .fetchNotAdmitted pa left

/-- Refusing an input: the state is unchanged but for the mark (R17, R34). -/
def refuse (r : RefusalReason) (s : State) : Host.Outcome State Fault Refusal :=
  .refused (refusalOf r { s with refused := some r })

/-! ### The steps every push shares (41_push.md R93) -/

/-- The decremented stack pointer, `(SP - 2) mod 2^16` (R94). -/
def spNew (r : RegFile) : Word := readReg r (.gpr .sp) - 2

/-- The physical address a push writes its word to, `Phys(SS, (SP - 2) mod 2^16)`: always SS, always the
new SP (R95). -/
def pushAddr (s : State) : Nat := phys s.cfg (readReg s.regs (.seg .ss)) (spNew s.regs)

/-- Step 2: SP is decremented; the only register write any push makes (R94). -/
def decrementSp (s : State) : State := { s with regs := writeReg s.regs (.gpr .sp) (spNew s.regs) }

/-- Steps 2 to 4: decrement SP, translate, write. A write that is not admitted faults with SP already
decremented (R93, R114). -/
def pushWord (src : Word) (s : State) : Host.Outcome State Fault Refusal :=
  match memWrite (decrementSp s) (pushAddr s) src with
  | .ok t => .next t
  | .error c => raise c (decrementSp s)

/-! ### The sequencer (10_state.md R25) -/

/-- On `Done` the sequencer adds the instruction's length to IP modulo 2^16; on a fault or a refusal IP
stays (R25). -/
def retire (len : Nat) : Host.Outcome State Fault Refusal → Host.Outcome State Fault Refusal
  | .next t => .next { t with ip := t.ip + BitVec.ofNat 16 len }
  | .fault f => .fault f
  | .refused r => .refused r

end Sys2Proof.Machine
end

