-- ==== Sys2Proof/Machine/Flags.lean ====
section
/-! DEFINITION. FLAGS. No instruction in scope sets, clears or tests a flag (10_state.md R26, R108), so
there is no flag computation; the one operation is the read `pushf` makes. -/

namespace Sys2Proof.Machine

/-- `get_flags()`: all 16 bits, opaque and unchanged (R26, R107). -/
def getFlags (r : RegFile) : Word := readReg r .flags

end Sys2Proof.Machine
end

