-- ==== Sys2Proof/Machine/Operands.lean ====
section
/-! DEFINITION. Operand resolution of `push r/m` (40_operand_resolution.md): the resolver as a parameter,
its reference value, and the operand read. -/

namespace Sys2Proof.Machine

/-- `RESOLVER(modrm, disp, prefix, GPR, SEG)`: a function of the ModRM byte, displacement, prefix and the
register values alone (R88, R90, R91). -/
abbrev Resolver := ModRm → Disp → Option SegReg → RegFile → Operand

/-- What the block relies on of a resolver: `Reg(k)` exactly when `mod = 11`, with `k = rm` (R91). That it
reads only registers and writes nothing is in its type. -/
def Resolver.Lawful (R : Resolver) : Prop :=
  ∀ m d pre r,
    (m.mod = 0b11 → R m d pre r = .reg (gprOfIndex m.rm)) ∧
    (m.mod ≠ 0b11 → ∃ seg off, R m d pre r = .mem seg off)

/-- The displacement as a term of the offset: `sext_16(d8)`, `d16`, or 0 (R70, R83). -/
def dispValue : Disp → Word
  | .none => 0
  | .d8 d => d.signExtend 16
  | .d16 d => d

/-- The register terms of the offset table, by `rm` (R83); `rm = 110` is BP, or no register where
`mod = 00`. -/
def baseTerms (m : ModRm) (r : RegFile) : Word :=
  match m.rm.toFin with
  | 0 => readReg r (.gpr .bx) + readReg r (.gpr .si)
  | 1 => readReg r (.gpr .bx) + readReg r (.gpr .di)
  | 2 => readReg r (.gpr .bp) + readReg r (.gpr .si)
  | 3 => readReg r (.gpr .bp) + readReg r (.gpr .di)
  | 4 => readReg r (.gpr .si)
  | 5 => readReg r (.gpr .di)
  | 6 => if m.mod = 0b00 then 0 else readReg r (.gpr .bp)
  | 7 => readReg r (.gpr .bx)

/-- The default segment: SS where the offset uses BP, DS otherwise (R85). -/
def defaultSeg (m : ModRm) : SegReg :=
  match m.rm.toFin with
  | 2 => .ss
  | 3 => .ss
  | 6 => if m.mod = 0b00 then .ds else .ss
  | _ => .ds

/-- An accepted segment-override prefix replaces the default segment of a memory operand (R86). -/
def operandSeg (m : ModRm) (pre : Option SegReg) : SegReg :=
  match pre with
  | some seg => seg
  | none => defaultSeg m

/-- The reference resolver, the 8086's 16-bit table (R82 to R86): offsets are sums modulo 2^16, never
carried into the segment (R84). PRESUMED, log entry 9. -/
def resolve8086 : Resolver := fun m d pre r =>
  if m.mod = 0b11 then .reg (gprOfIndex m.rm)
  else .mem (operandSeg m pre) (baseTerms m r + dispValue d)

/-- The physical address of a memory operand, through the same translator as the stack write (R88). -/
def operandPa (s : State) (seg : SegReg) (off : Word) : Nat :=
  phys s.cfg (readReg s.regs (.seg seg)) off

/-- `OperandRead()`: the register, or the memory word; it writes nothing (R88, R89). -/
def operandRead (s : State) : Operand → Except FaultCause Word
  | .reg g => .ok (readReg s.regs (.gpr g))
  | .mem seg off => memRead s (operandPa s seg off)

end Sys2Proof.Machine
end

