-- ==== Sys2Proof/Machine/Push.lean ====
section
/-! DEFINITION. The push execution unit as a block: the decoder port's input, the four handlers' sources,
and the sequence they share (00_scope.md R7, R8; 41_push.md R93). -/

namespace Sys2Proof.Machine

/-- What the decoder port hands the block, one form per handler (R8): the raw opcode byte, and for
`PUSH_RM` the ModRM byte (its `reg` is `raw_reg`), displacement and prefix the operand read is made
from. -/
inductive Invocation where
  | pushRm (opcode : Byte) (modrm : ModRm) (disp : Disp) (pre : Option SegReg)
  | pushR (opcode : Byte)
  | pushSr (opcode : Byte)
  | pushf (opcode : Byte)
  deriving DecidableEq, Repr

/-- Steps 0 and 1: the `PUSH_RM` precondition, and the source value (R93, R96). `push r` looks at
`opcode[2:0]` and no other bit (R100), `push sr` at `opcode[4:3]` (R103), `pushf` at none (R106). -/
def source (R : Resolver) (inv : Invocation) (s : State) : Except FaultCause Word :=
  match inv with
  | .pushRm opcode m d pre =>
    if m.reg = 6 then operandRead s (R m d pre s.regs)
    else .error (.contractViolation opcode m.reg)
  | .pushR opcode => .ok (readReg s.regs (.gpr (gprOfIndex (opcodeGprField opcode))))
  | .pushSr opcode => .ok (readReg s.regs (.seg (segOfIndex (opcodeSegField opcode))))
  | .pushf _ => .ok (getFlags s.regs)

/-- One invocation of the block, one indivisible transaction (R12): the source is resolved before SP
changes, then SP is decremented, the address translated and the word written (R93). -/
def invoke (R : Resolver) (inv : Invocation) (s : State) : Host.Outcome State Fault Refusal :=
  match source R inv s with
  | .ok src => pushWord src s
  | .error c => raise c s

/-- What the reference decoder hands the block for an instruction (R8, R73). -/
def invocationOf : Instr → Invocation
  | .pushAX _ => .pushR 0x50
  | .pushCX _ => .pushR 0x51
  | .pushDX _ => .pushR 0x52
  | .pushBX _ => .pushR 0x53
  | .pushSP _ => .pushR 0x54
  | .pushBP _ => .pushR 0x55
  | .pushSI _ => .pushR 0x56
  | .pushDI _ => .pushR 0x57
  | .pushES _ => .pushSr 0x06
  | .pushCS _ => .pushSr 0x0E
  | .pushSS _ => .pushSr 0x16
  | .pushDS _ => .pushSr 0x1E
  | .pushf _ => .pushf 0x9C
  | .pushRmRegister pre reg rm => .pushRm 0xFF ⟨0b11, reg, rm⟩ .none pre
  | .pushRmDisp16 pre reg d => .pushRm 0xFF ⟨0b00, reg, 0b110⟩ (.d16 d) pre
  | .pushRmBaseIndex pre reg rm => .pushRm 0xFF ⟨0b00, reg, rm⟩ .none pre
  | .pushRmBaseIndexDisp8 pre reg rm d => .pushRm 0xFF ⟨0b01, reg, rm⟩ (.d8 d) pre
  | .pushRmBaseIndexDisp16 pre reg rm d => .pushRm 0xFF ⟨0b10, reg, rm⟩ (.d16 d) pre

end Sys2Proof.Machine
end

