-- ==== Sys2Proof/Machine/PushF.lean ====
section
/-! DEFINITION. `pushf` (41_push.md R106, R107). -/

namespace Sys2Proof.Machine

/-- `pushf`, opcode 0x9C: all 16 bits of FLAGS, uninterpreted (R69, R106). A segment-override prefix has no
effect (R72). -/
def execPushf (_pre : Option SegReg) (s : State) : Host.Outcome State Fault Refusal :=
  invoke resolve8086 (.pushf 0x9C) s

end Sys2Proof.Machine
end

