-- ==== Sys2Proof/Machine/PushR.lean ====
section
/-! DEFINITION. `push r` (41_push.md R100 to R102): the general-purpose register `opcode[2:0]` names. A
segment-override prefix has no effect here (30_encoding.md R72). -/

namespace Sys2Proof.Machine

/-- `push AX`, opcode 0x50 (R65, R101). -/
def execPushAX (_pre : Option SegReg) (s : State) : Host.Outcome State Fault Refusal :=
  invoke resolve8086 (.pushR 0x50) s

/-- `push CX`, opcode 0x51 (R65, R101). -/
def execPushCX (_pre : Option SegReg) (s : State) : Host.Outcome State Fault Refusal :=
  invoke resolve8086 (.pushR 0x51) s

/-- `push DX`, opcode 0x52 (R65, R101). -/
def execPushDX (_pre : Option SegReg) (s : State) : Host.Outcome State Fault Refusal :=
  invoke resolve8086 (.pushR 0x52) s

/-- `push BX`, opcode 0x53 (R65, R101). -/
def execPushBX (_pre : Option SegReg) (s : State) : Host.Outcome State Fault Refusal :=
  invoke resolve8086 (.pushR 0x53) s

/-- `push SP`, opcode 0x54 (R65, R101). The word pushed is the SP of before the decrement (R102). -/
def execPushSP (_pre : Option SegReg) (s : State) : Host.Outcome State Fault Refusal :=
  invoke resolve8086 (.pushR 0x54) s

/-- `push BP`, opcode 0x55 (R65, R101). -/
def execPushBP (_pre : Option SegReg) (s : State) : Host.Outcome State Fault Refusal :=
  invoke resolve8086 (.pushR 0x55) s

/-- `push SI`, opcode 0x56 (R65, R101). -/
def execPushSI (_pre : Option SegReg) (s : State) : Host.Outcome State Fault Refusal :=
  invoke resolve8086 (.pushR 0x56) s

/-- `push DI`, opcode 0x57 (R65, R101). -/
def execPushDI (_pre : Option SegReg) (s : State) : Host.Outcome State Fault Refusal :=
  invoke resolve8086 (.pushR 0x57) s

end Sys2Proof.Machine
end

