-- ==== Sys2Proof/Machine/PushRm.lean ====
section
/-! DEFINITION. `push r/m` (41_push.md R98, R99), one meaning per ModRM form of 30_encoding.md R75, each an
invocation of the `PUSH_RM` handler with opcode 0xFF (R68). -/

namespace Sys2Proof.Machine

/-- `mod = 11`: the general-purpose register `rm` (R82). -/
def execPushRmRegister (pre : Option SegReg) (reg rm : BitVec 3) (s : State) :
    Host.Outcome State Fault Refusal :=
  invoke resolve8086 (.pushRm 0xFF ⟨0b11, reg, rm⟩ .none pre) s

/-- `mod = 00, rm = 110`: the word at the direct address `disp`, in DS by default (R83, R85). -/
def execPushRmDisp16 (pre : Option SegReg) (reg : BitVec 3) (disp : Word) (s : State) :
    Host.Outcome State Fault Refusal :=
  invoke resolve8086 (.pushRm 0xFF ⟨0b00, reg, 0b110⟩ (.d16 disp) pre) s

/-- `mod = 00, rm != 110`: the word at the register terms of `rm` (R83). -/
def execPushRmBaseIndex (pre : Option SegReg) (reg rm : BitVec 3) (s : State) :
    Host.Outcome State Fault Refusal :=
  invoke resolve8086 (.pushRm 0xFF ⟨0b00, reg, rm⟩ .none pre) s

/-- `mod = 01`: an 8-bit displacement, sign-extended, added to the register terms (R83, R84). -/
def execPushRmBaseIndexDisp8 (pre : Option SegReg) (reg rm : BitVec 3) (disp : Byte) (s : State) :
    Host.Outcome State Fault Refusal :=
  invoke resolve8086 (.pushRm 0xFF ⟨0b01, reg, rm⟩ (.d8 disp) pre) s

/-- `mod = 10`: a 16-bit displacement added to the register terms (R83, R84). -/
def execPushRmBaseIndexDisp16 (pre : Option SegReg) (reg rm : BitVec 3) (disp : Word) (s : State) :
    Host.Outcome State Fault Refusal :=
  invoke resolve8086 (.pushRm 0xFF ⟨0b10, reg, rm⟩ (.d16 disp) pre) s

end Sys2Proof.Machine
end

