-- ==== Sys2Proof/Machine/PushSr.lean ====
section
/-! DEFINITION. `push sr` (41_push.md R103 to R105): the segment register `opcode[4:3]` names. A
segment-override prefix has no effect here (30_encoding.md R72). -/

namespace Sys2Proof.Machine

/-- `push ES`, opcode 0x06 (R66, R104). -/
def execPushES (_pre : Option SegReg) (s : State) : Host.Outcome State Fault Refusal :=
  invoke resolve8086 (.pushSr 0x06) s

/-- `push CS`, opcode 0x0E (R66, R104). -/
def execPushCS (_pre : Option SegReg) (s : State) : Host.Outcome State Fault Refusal :=
  invoke resolve8086 (.pushSr 0x0E) s

/-- `push SS`, opcode 0x16 (R66, R104). -/
def execPushSS (_pre : Option SegReg) (s : State) : Host.Outcome State Fault Refusal :=
  invoke resolve8086 (.pushSr 0x16) s

/-- `push DS`, opcode 0x1E (R66, R104). -/
def execPushDS (_pre : Option SegReg) (s : State) : Host.Outcome State Fault Refusal :=
  invoke resolve8086 (.pushSr 0x1E) s

end Sys2Proof.Machine
end

