-- ==== Sys2Proof/Machine/Dispatch.lean ====
section
/-! DEFINITION. The dispatch: one arm per constructor of `Instr`. -/

namespace Sys2Proof.Machine

/-- What the block does with an instruction: one invocation. It neither reads nor writes IP (10_state.md
R25, log entry 15). -/
def exec (i : Instr) (s : State) : Host.Outcome State Fault Refusal :=
  match i with
  | .pushAX pre => Sys2Proof.Machine.execPushAX pre s
  | .pushCX pre => Sys2Proof.Machine.execPushCX pre s
  | .pushDX pre => Sys2Proof.Machine.execPushDX pre s
  | .pushBX pre => Sys2Proof.Machine.execPushBX pre s
  | .pushSP pre => Sys2Proof.Machine.execPushSP pre s
  | .pushBP pre => Sys2Proof.Machine.execPushBP pre s
  | .pushSI pre => Sys2Proof.Machine.execPushSI pre s
  | .pushDI pre => Sys2Proof.Machine.execPushDI pre s
  | .pushES pre => Sys2Proof.Machine.execPushES pre s
  | .pushCS pre => Sys2Proof.Machine.execPushCS pre s
  | .pushSS pre => Sys2Proof.Machine.execPushSS pre s
  | .pushDS pre => Sys2Proof.Machine.execPushDS pre s
  | .pushf pre => Sys2Proof.Machine.execPushf pre s
  | .pushRmRegister pre reg rm => Sys2Proof.Machine.execPushRmRegister pre reg rm s
  | .pushRmDisp16 pre reg disp => Sys2Proof.Machine.execPushRmDisp16 pre reg disp s
  | .pushRmBaseIndex pre reg rm => Sys2Proof.Machine.execPushRmBaseIndex pre reg rm s
  | .pushRmBaseIndexDisp8 pre reg rm disp => Sys2Proof.Machine.execPushRmBaseIndexDisp8 pre reg rm disp s
  | .pushRmBaseIndexDisp16 pre reg rm disp => Sys2Proof.Machine.execPushRmBaseIndexDisp16 pre reg rm disp s

end Sys2Proof.Machine
end

