-- ==== Sys2Proof/Machine/Fetch.lean ====
section
/-! DEFINITION. The sequencer's fetch from CS:IP, and placing bytes in memory, which launching a program
needs (20_memory.md R44, R61; 70_reset_and_hazards.md R137). -/

namespace Sys2Proof.Machine

/-- The physical address of the code byte at offset `off`: `Phys(CS, off)` (R137). -/
def codePa (s : State) (off : Word) : Nat := phys s.cfg (readReg s.regs (.seg .cs)) off

/-- Up to `n` bytes from CS:`off` on, in increasing address order (R50), read from memory as it is now: no
prefetch queue (R61). They end before the first byte whose fetch the memory subsystem does not perform
(R45, log entry 6). Offsets wrap modulo 2^16, as IP does (R25, C7, log entry 5). -/
def fetchBytes (s : State) : Nat → Word → List Byte
  | 0, _ => []
  | n + 1, off =>
    if memAdmits s.cfg (codePa s off) 1 then
      Memory.read s.mem (codePa s off) :: fetchBytes s n (off + 1)
    else []

/-- The bytes of the next instruction, or as many of them as can be fetched. -/
def fetched (s : State) : List Byte := fetchBytes s maxInstrLength s.ip

/-- Why the sequencer refuses bytes the decoder gives no instruction for (R77, R117); bytes that end too
soon end at one that is not fetched (log entry 6). -/
def refusalReason (s : State) : DecodeError → RefusalReason
  | .notPushFamily => .notPushFamily
  | .unsupportedPrefix => .unsupportedPrefix
  | .needsMoreBytes =>
    .fetchNotAdmitted (codePa s (s.ip + BitVec.ofNat 16 (fetched s).length))

/-- The state with `bytes` placed from CS:`off` on, in order, one byte at a time. Bytes that outnumber the
2^PA_WIDTH addresses overlap, and the later byte stands: DESIGN CHOICE, log entry 16. -/
def placeCode (s : State) (off : Word) : List Byte → State
  | [] => s
  | b :: bs => placeCode { s with mem := Memory.write s.mem (codePa s off) b } (off + 1) bs

/-- The state with its fault record and refusal mark clear, as a launch has them (R132). -/
def clearMarks (s : State) : State := { s with fault := none, refused := none }

end Sys2Proof.Machine
end

