-- ==== Sys2Proof/Machine/Step.lean ====
section
/-! DEFINITION. One step of a run (70_reset_and_hazards.md R137): fetch and dispatch the instruction at
CS:IP, run it, and on `Done` advance IP. -/

namespace Sys2Proof.Machine

/-- A state with a fault recorded, or refused, steps no further: it answers the same again and nothing
clears it (00_scope.md R17, R34, R120). Otherwise the bytes at CS:IP are decoded and the instruction runs,
the sequencer adding its length to IP on `Done` (R25); bytes without an instruction are refused (R77). No
interrupt is taken between steps (R122, log entry 11). -/
def step (s : State) : Host.Outcome State Fault Refusal :=
  match s.fault, s.refused with
  | some c, _ => .fault (faultOf c s)
  | none, some r => .refused (refusalOf r s)
  | none, none =>
    match decode (fetched s) with
    | .ok (i, _) => retire (instrLength i) (exec i s)
    | .error e => refuse (refusalReason s e) s

/-- `s` with the instruction the table numbers `w` placed at CS:IP, and the marks a launch clears clear
(R132), so that the next step fetches and runs it wherever the memory subsystem performs the fetch. It
stands for loading a program, which the spec gives to the launch (R137, log entry 8). -/
def State.withFetchWord (s : State) (nbits w : Nat) : State :=
  clearMarks (placeCode s s.ip (tableBytes nbits w))

end Sys2Proof.Machine
end

