-- ==== Sys2Proof/Machine/Run.lean ====
section
/-! DEFINITION. How a run starts and how it ends (70_reset_and_hazards.md R132, R137). -/

namespace Sys2Proof.Machine

/-- The arguments of a launch: the register file, IP, memory, the parameters, and the program, a byte
string (R132, R137). -/
structure Launch where
  regs    : RegFile
  ip0     : Word
  mem     : Memory
  cfg     : Config
  program : List Byte
  deriving DecidableEq, Repr

/-- The launch's state before its program is placed: both marks clear (R132). -/
def Launch.bare (l : Launch) : State where
  regs := l.regs
  ip := l.ip0
  mem := l.mem
  cfg := l.cfg
  fault := none
  refused := none

/-- The start of a run: the program placed at `Phys(CS, IP0)` onward. A program that would run past
IP = 0xFFFF is refused with reason `IpWrap` (R137, C7). One longer than the physical address space is
launched all the same, and overlaps itself there (log entry 16). -/
def launch (l : Launch) : Host.Outcome State Fault Refusal :=
  if l.ip0.toNat + l.program.length ≤ 0x10000 then .next (placeCode l.bare l.ip0 l.program)
  else refuse .ipWrap l.bare

/-- A run ends well when IP equals IP0 plus the program's length with no fault recorded and no refusal mark
(R137); the sum is taken modulo 2^16, as IP is (R25, log entry 5). -/
def Launch.endsWell (l : Launch) (s : State) : Bool :=
  s.ip == l.ip0 + BitVec.ofNat 16 l.program.length && s.fault.isNone && s.refused.isNone

/-- A run of at most `n` steps: it stops well at the program's end, and badly at the first fault or refusal
(R137). A run still going after `n` steps answers where it stands. -/
def runFrom (l : Launch) : Nat → State → Host.Outcome State Fault Refusal
  | 0, s => .next s
  | n + 1, s =>
    if l.endsWell s then .next s
    else
      match step s with
      | .next t => runFrom l n t
      | .fault f => .fault f
      | .refused r => .refused r

end Sys2Proof.Machine
end

