-- ==== Sys2Proof/Safety.lean ====
section
/-! DEFINITION. What claims use for a state of this machine and for one that can go on. -/

namespace Sys2Proof.Machine

/-- The state invariant: the physical address width is at least 1 (20_memory.md R42), memory is in its
canonical form, and it lists only addresses 0 to 2^PA_WIDTH - 1 (R31). -/
abbrev State.Inv (s : State) : Prop :=
  s.cfg.wf ∧ Memory.wf s.mem ∧ Memory.inRange s.mem s.cfg.paWidth

/-- No fault is recorded and the refusal mark is clear: the only states an instruction runs from (R17). -/
abbrev State.Running (s : State) : Prop := s.fault = none ∧ s.refused = none

/-- The memory subsystem performs the stack write of the next push (R45, R135). -/
abbrev State.StackAdmitted (s : State) : Prop := memAdmits s.cfg (pushAddr s) 2 = true

end Sys2Proof.Machine
end

