-- ==== Sys2Proof/Certificates/Slice0/Obligations.lean ====
section
/-! DEFINITION. What this model claims of the hardware, one `def Obligations.<Name> : Prop` each, listed in
OBLIGATIONS.json. The helpers before them spell out the spec's tables a second time, independently of the
meanings, so that a wrong row in either shows. -/

open Sys2Proof Sys2Proof.Machine

namespace Sys2Proof.Statements

/-! ### The spec's tables, spelled out -/

/-- The value of general-purpose register `k`, in the order of R20. -/
def gprNumbered (r : RegFile) (k : BitVec 3) : Word :=
  [r.ax, r.cx, r.dx, r.bx, r.sp, r.bp, r.si, r.di].getD k.toNat 0

/-- The value of a segment register. -/
def segValue (r : RegFile) : SegReg → Word
  | .es => r.es
  | .cs => r.cs
  | .ss => r.ss
  | .ds => r.ds

/-- The register terms of a memory operand's offset, by `rm`, for `mod` 01 and 10, and for `mod` 00 but
`rm = 110` (R83). -/
def offsetTerms (r : RegFile) (rm : BitVec 3) : Word :=
  [r.bx + r.si, r.bx + r.di, r.bp + r.si, r.bp + r.di, r.si, r.di, r.bp, r.bx].getD rm.toNat 0

/-- The default segment that goes with those terms (R83, R85). -/
def defaultSegOf (rm : BitVec 3) : SegReg :=
  [SegReg.ds, .ds, .ss, .ss, .ds, .ds, .ss, .ds].getD rm.toNat .ds

/-- One form of `push r/m` with a memory operand: the instruction, and the segment register and offset of
its operand. -/
structure MemForm where
  instr : Instr
  seg   : SegReg
  off   : RegFile → Word

/-- The four memory forms (R75) with their operands (R83 to R86), `pre` being the override prefix. -/
def memForms (pre : Option SegReg) (rm : BitVec 3) (d8 : Byte) (d16 : Word) : List MemForm :=
  [ ⟨.pushRmDisp16 pre 6 d16, pre.getD .ds, fun _ => d16⟩,
    ⟨.pushRmBaseIndex pre 6 rm, pre.getD (defaultSegOf rm), fun r => offsetTerms r rm⟩,
    ⟨.pushRmBaseIndexDisp8 pre 6 rm d8, pre.getD (defaultSegOf rm),
      fun r => offsetTerms r rm + d8.signExtend 16⟩,
    ⟨.pushRmBaseIndexDisp16 pre 6 rm d16, pre.getD (defaultSegOf rm),
      fun r => offsetTerms r rm + d16⟩ ]

/-- The physical address of a memory form's operand word. -/
def MemForm.pa (f : MemForm) (s : State) : Nat := phys s.cfg (segValue s.regs f.seg) (f.off s.regs)

/-- Whether an instruction is a memory form of `push r/m`. -/
def isMemoryForm : Instr → Bool
  | .pushRmDisp16 _ _ _ | .pushRmBaseIndex _ _ _ => true
  | .pushRmBaseIndexDisp8 _ _ _ _ | .pushRmBaseIndexDisp16 _ _ _ _ => true
  | .pushAX _ | .pushCX _ | .pushDX _ | .pushBX _ | .pushSP _ | .pushBP _ | .pushSI _ | .pushDI _ => false
  | .pushES _ | .pushCS _ | .pushSS _ | .pushDS _ | .pushf _ | .pushRmRegister _ _ _ => false

/-- The prefix of an instruction. -/
def preOf : Instr → Option SegReg
  | .pushAX p | .pushCX p | .pushDX p | .pushBX p | .pushSP p | .pushBP p | .pushSI p | .pushDI p => p
  | .pushES p | .pushCS p | .pushSS p | .pushDS p | .pushf p => p
  | .pushRmRegister p _ _ | .pushRmDisp16 p _ _ | .pushRmBaseIndex p _ _ => p
  | .pushRmBaseIndexDisp8 p _ _ _ | .pushRmBaseIndexDisp16 p _ _ _ => p

/-- The same instruction with another prefix, or none. -/
def withPre (p : Option SegReg) : Instr → Instr
  | .pushAX _ => .pushAX p
  | .pushCX _ => .pushCX p
  | .pushDX _ => .pushDX p
  | .pushBX _ => .pushBX p
  | .pushSP _ => .pushSP p
  | .pushBP _ => .pushBP p
  | .pushSI _ => .pushSI p
  | .pushDI _ => .pushDI p
  | .pushES _ => .pushES p
  | .pushCS _ => .pushCS p
  | .pushSS _ => .pushSS p
  | .pushDS _ => .pushDS p
  | .pushf _ => .pushf p
  | .pushRmRegister _ reg rm => .pushRmRegister p reg rm
  | .pushRmDisp16 _ reg d => .pushRmDisp16 p reg d
  | .pushRmBaseIndex _ reg rm => .pushRmBaseIndex p reg rm
  | .pushRmBaseIndexDisp8 _ reg rm d => .pushRmBaseIndexDisp8 p reg rm d
  | .pushRmBaseIndexDisp16 _ reg rm d => .pushRmBaseIndexDisp16 p reg rm d

/-- The length of an instruction without its prefix (R75). -/
def formLength : Instr → Nat
  | .pushAX _ | .pushCX _ | .pushDX _ | .pushBX _ | .pushSP _ | .pushBP _ | .pushSI _ | .pushDI _ => 1
  | .pushES _ | .pushCS _ | .pushSS _ | .pushDS _ | .pushf _ => 1
  | .pushRmRegister _ _ _ | .pushRmBaseIndex _ _ _ => 2
  | .pushRmBaseIndexDisp8 _ _ _ _ => 3
  | .pushRmDisp16 _ _ _ | .pushRmBaseIndexDisp16 _ _ _ _ => 4

/-- One row of the one-byte pushes: the opcode, the instruction, and the register whose value it pushes. -/
structure PushRow where
  opcode : Byte
  instr  : Option SegReg → Instr
  value  : RegFile → Word

/-- `push r` (R65, R100). -/
def gprRows : List PushRow :=
  [ ⟨0x50, .pushAX, fun r => r.ax⟩, ⟨0x51, .pushCX, fun r => r.cx⟩, ⟨0x52, .pushDX, fun r => r.dx⟩,
    ⟨0x53, .pushBX, fun r => r.bx⟩, ⟨0x54, .pushSP, fun r => r.sp⟩, ⟨0x55, .pushBP, fun r => r.bp⟩,
    ⟨0x56, .pushSI, fun r => r.si⟩, ⟨0x57, .pushDI, fun r => r.di⟩ ]

/-- `push sr` (R66, R103). -/
def segRows : List PushRow :=
  [ ⟨0x06, .pushES, fun r => r.es⟩, ⟨0x0E, .pushCS, fun r => r.cs⟩, ⟨0x16, .pushSS, fun r => r.ss⟩,
    ⟨0x1E, .pushDS, fun r => r.ds⟩ ]

/-- `pushf` (R69, R106). -/
def flagsRow : PushRow := ⟨0x9C, .pushf, fun r => r.flags⟩

/-! ### What a push does -/

/-- The physical address a push from `s` writes to: SS, and SP decremented modulo 2^16 (R95). -/
def stackPa (s : State) : Nat := phys s.cfg s.regs.ss (s.regs.sp - 2)

/-- The register file with SP decremented by 2 modulo 2^16 and nothing else changed (R94). -/
def spMoved (r : RegFile) : RegFile := { r with sp := r.sp - 2 }

/-- `t` is what a completed push of `v` leaves of `s` (R97): SP moved and no other register; the word `v` at
the new top of the stack, low byte first; every other byte, IP, the parameters and the marks as before. -/
def Pushed (s t : State) (v : Word) : Prop :=
  t.regs = spMoved s.regs ∧
  Memory.read t.mem (stackPa s) = lowByte v ∧
  Memory.read t.mem (nextPa s.cfg (stackPa s)) = highByte v ∧
  (∀ a, a ≠ stackPa s → a ≠ nextPa s.cfg (stackPa s) →
    Memory.read t.mem a = Memory.read s.mem a) ∧
  t.ip = s.ip ∧ t.cfg = s.cfg ∧ t.fault = s.fault ∧ t.refused = s.refused

/-- The instruction completes, and pushes `v`. -/
def Completes (i : Instr) (s : State) (v : Word) : Prop := ∃ t, exec i s = .next t ∧ Pushed s t v

/-- The instruction stops in `MemWriteFault` at the stack word, with SP moved and nothing else changed
(R114). -/
def WriteFaults (i : Instr) (s : State) : Prop :=
  exec i s = .fault (.memWriteFault (stackPa s) 2
    { s with regs := spMoved s.regs, fault := some (.memWrite (stackPa s) 2) })

/-- The memory subsystem performs the stack write of a push from `s`. -/
abbrev StackWritable (s : State) : Prop := memAdmits s.cfg (stackPa s) 2 = true

/-- What the spec says of a one-byte push: its encoding, its result where the stack write is admitted, its
fault where it is not. -/
def RowHolds (row : PushRow) : Prop :=
  (∀ rest, decode (row.opcode :: rest) = .ok (row.instr none, rest)) ∧
  ∀ pre s, s.Inv →
    (StackWritable s → Completes (row.instr pre) s (row.value s.regs)) ∧
    (¬ StackWritable s → WriteFaults (row.instr pre) s)

/-- The state with another value in one register. -/
def withReg (id : RegId) (x : Word) (s : State) : State := { s with regs := writeReg s.regs id x }

/-- The instructions of a list, one after another, the sequencer left out. -/
def pushAll : List Instr → State → Host.Outcome State Fault Refusal
  | [], s => .next s
  | i :: is, s =>
    match exec i s with
    | .next t => pushAll is t
    | .fault f => .fault f
    | .refused r => .refused r

/-- The stack word of the push number `j` from `s`, counting from 1: `Phys(SS, (SP - 2j) mod 2^16)`
(R135). -/
def stackPaOf (s : State) (j : Nat) : Nat :=
  phys s.cfg s.regs.ss (s.regs.sp - BitVec.ofNat 16 (2 * j))

end Sys2Proof.Statements

open Sys2Proof.Statements

/-! ### Encoding -/

/-- Words written out from the encodings of R65, R66, R68, R69, R70 and R72 decode to what they stand
for. -/
def Obligations.SpecWordsDecode : Prop :=
  decode [0x54] = .ok (.pushSP none, []) ∧
  decode [0x0E] = .ok (.pushCS none, []) ∧
  decode [0x9C] = .ok (.pushf none, []) ∧
  decode [0xFF, 0xF4] = .ok (.pushRmRegister none 6 4, []) ∧
  decode [0xFF, 0x36, 0x34, 0x12] = .ok (.pushRmDisp16 none 6 0x1234, []) ∧
  decode [0xFF, 0x30] = .ok (.pushRmBaseIndex none 6 0, []) ∧
  decode [0xFF, 0x76, 0xFE] = .ok (.pushRmBaseIndexDisp8 none 6 6 0xFE, []) ∧
  decode [0xFF, 0xB7, 0x00, 0x01] = .ok (.pushRmBaseIndexDisp16 none 6 7 0x0100, []) ∧
  decode [0x2E, 0xFF, 0x36, 0x00, 0x00] = .ok (.pushRmDisp16 (some .cs) 6 0, [])

/-- No bit of an encoding is dropped: decoding an encoded well-formed instruction, whatever follows it,
gives it back and leaves what follows. -/
def Obligations.DecodeEncodeRoundTrip : Prop :=
  ∀ (i : Instr) (rest : List Byte), i.wellFormed = true →
    decode (encode i ++ rest) = .ok (i, rest)

/-- Each byte sequence has one meaning: what the decoder reads is a well-formed instruction whose encoding
is exactly the bytes read. -/
def Obligations.DecodedBytesAreTheEncoding : Prop :=
  ∀ (bytes rest : List Byte) (i : Instr), decode bytes = .ok (i, rest) →
    i.wellFormed = true ∧ bytes = encode i ++ rest

/-- R73: the dispatch routes each opcode byte as the table says, and what it routes nowhere the decoder
refuses as outside the push family, with or without an override prefix before it. -/
def Obligations.DispatchTable : Prop :=
  (∀ (op : Byte) (reg : BitVec 3),
    (dispatch op reg = some .pushR ↔ 0x50 ≤ op.toNat ∧ op.toNat ≤ 0x57) ∧
    (dispatch op reg = some .pushSr ↔ op = 0x06 ∨ op = 0x0E ∨ op = 0x16 ∨ op = 0x1E) ∧
    (dispatch op reg = some .pushf ↔ op = 0x9C) ∧
    (dispatch op reg = some .pushRm ↔ op = 0xFF ∧ reg = 6)) ∧
  ∀ (pre : Option SegReg) (op b : Byte) (rest : List Byte), isPrefixByte op = false →
    dispatch op (b.extractLsb' 3 3) = none →
    decode (preBytes pre ++ op :: b :: rest) = .error .notPushFamily

/-- R72 and R77: the bytes the decoder refuses, and the reason. With or without an accepted override
before it, every opcode byte outside the family, and 0xFF with `reg` other than 6, is `notPushFamily`; a
LOCK or repeat prefix, and a second override, is `unsupportedPrefix`. R72 speaks of such a prefix before a
push; that it has this reason before any other byte too is the model's choice (log entry 7). -/
def Obligations.RefusedEncodings : Prop :=
  ∀ (pre : Option SegReg) (op b : Byte) (rest : List Byte),
    (¬ (0x50 ≤ op.toNat ∧ op.toNat ≤ 0x57) →
      op ∉ ([0x06, 0x0E, 0x16, 0x1E, 0x9C, 0xFF] : List Byte) →
      op ∉ ([0x26, 0x2E, 0x36, 0x3E, 0xF0, 0xF2, 0xF3] : List Byte) →
      decode (preBytes pre ++ op :: rest) = .error .notPushFamily) ∧
    (b.extractLsb' 3 3 ≠ 6#3 → decode (preBytes pre ++ 0xFF :: b :: rest) = .error .notPushFamily) ∧
    (op ∈ ([0xF0, 0xF2, 0xF3] : List Byte) →
      decode (preBytes pre ++ op :: rest) = .error .unsupportedPrefix) ∧
    (pre ≠ none → op ∈ ([0x26, 0x2E, 0x36, 0x3E] : List Byte) →
      decode (preBytes pre ++ op :: rest) = .error .unsupportedPrefix)

/-- R72: one segment-override prefix is accepted before any push, and is read as that instruction's
prefix. -/
def Obligations.OverrideAcceptedBeforeAnyPush : Prop :=
  ∀ (i : Instr) (rest : List Byte), i.wellFormed = true → preOf i = none →
    decode (0x26 :: (encode i ++ rest)) = .ok (withPre (some .es) i, rest) ∧
    decode (0x2E :: (encode i ++ rest)) = .ok (withPre (some .cs) i, rest) ∧
    decode (0x36 :: (encode i ++ rest)) = .ok (withPre (some .ss) i, rest) ∧
    decode (0x3E :: (encode i ++ rest)) = .ok (withPre (some .ds) i, rest)

/-! ### The translator -/

/-- R39: the translator's formula, and its example. -/
def Obligations.TranslatorFormula : Prop :=
  (∀ (c : Config) (seg off : Word),
    phys c seg off = (seg.toNat * 16 + off.toNat) % 2 ^ c.paWidth) ∧
  phys Config.reference 0x1000 0x00FE = 0x100FE

/-- R41: the sum before reduction is at most 0x10FFEF; a width of 21 or more reduces nothing; at width 20
the sums from 0x100000 wrap; below width 20 distinct segments name one address. -/
def Obligations.TranslatorRange : Prop :=
  (∀ seg off : Word, seg.toNat * 16 + off.toNat ≤ 0x10FFEF) ∧
  (0xFFFF#16).toNat * 16 + (0xFFFF#16).toNat = 0x10FFEF ∧
  (∀ (c : Config) (seg off : Word), 21 ≤ c.paWidth →
    phys c seg off = seg.toNat * 16 + off.toNat) ∧
  (∀ (c : Config) (seg off : Word), c.paWidth = 20 → 0x100000 ≤ seg.toNat * 16 + off.toNat →
    phys c seg off = seg.toNat * 16 + off.toNat - 0x100000 ∧ phys c seg off ≤ 0x0FFEF) ∧
  phys Config.reference 0xFFFF 0x0010 = 0 ∧ phys Config.reference 0xFFFF 0xFFFF = 0x0FFEF ∧
  (∀ (c : Config), c.paWidth < 20 → ∃ seg seg' : Word, seg ≠ seg' ∧
    ∀ off, phys c seg off = phys c seg' off)

/-- R43: sixteen bytes of offset are one segment, so different pairs name one address. -/
def Obligations.TranslatorPairsCoincide : Prop :=
  (∀ (c : Config) (seg off : Word), seg.toNat < 0xFFFF → off.toNat + 16 < 0x10000 →
    phys c (seg + 1) off = phys c seg (off + 16)) ∧
  phys Config.reference 0x1000 0x0010 = 0x10010 ∧ phys Config.reference 0x1001 0x0000 = 0x10010

/-! ### Memory -/

/-- R47: an admitted word write puts the low byte at `pa`, the high byte at the next address, and leaves
every other byte and all other state; a write that is not admitted is the fault, with nothing written. -/
def Obligations.WordWriteIsLittleEndian : Prop :=
  ∀ (s : State) (pa : Nat) (v : Word), s.Inv → pa < 2 ^ s.cfg.paWidth →
    (memAdmits s.cfg pa 2 = true → ∃ m,
      memWrite s pa v = .ok { s with mem := m } ∧
      (Memory.read m pa).toNat = v.toNat % 256 ∧
      (Memory.read m ((pa + 1) % 2 ^ s.cfg.paWidth)).toNat = v.toNat / 256 ∧
      ∀ a, a ≠ pa → a ≠ (pa + 1) % 2 ^ s.cfg.paWidth → Memory.read m a = Memory.read s.mem a) ∧
    (memAdmits s.cfg pa 2 = false → memWrite s pa v = .error (.memWrite pa 2))

/-- R48: an admitted word read gives the byte at the next address above the byte at `pa`; a read that is
not admitted is the fault. -/
def Obligations.WordReadIsLittleEndian : Prop :=
  ∀ (s : State) (pa : Nat),
    (memAdmits s.cfg pa 2 = true → ∃ w, memRead s pa = .ok w ∧
      w.toNat = 256 * (Memory.read s.mem ((pa + 1) % 2 ^ s.cfg.paWidth)).toNat +
        (Memory.read s.mem pa).toNat) ∧
    (memAdmits s.cfg pa 2 = false → memRead s pa = .error (.memRead pa 2))

/-- R50, R57: a word read where a word was written gives it back, and a word read one byte on has the
written word's high byte as its low byte. -/
def Obligations.WordReadSeesWordWritten : Prop :=
  ∀ (s t : State) (pa : Nat) (v : Word), s.Inv → memWrite s pa v = .ok t →
    memRead t pa = .ok v ∧
    ∀ w, memRead t (nextPa s.cfg pa) = .ok w → lowByte w = highByte v

/-- Memories in canonical form that read alike are equal data, so comparing states compares memories (the
model's own form; it rests on log entry 2). -/
def Obligations.CanonicalMemoriesReadAlikeAreEqual : Prop :=
  ∀ m m' : Memory, Memory.wf m → Memory.wf m' → (∀ a, Memory.read m a = Memory.read m' a) → m = m'

/-! ### push r, push sr, pushf -/

/-- R100, R101: `push r` for all eight registers, AX to DI in order. -/
def Obligations.PushGprRule : Prop := ∀ row ∈ gprRows, RowHolds row

/-- R103, R104: `push sr` for all four segment registers, ES, CS, SS, DS in order. -/
def Obligations.PushSegRule : Prop := ∀ row ∈ segRows, RowHolds row

/-- R106: `pushf` pushes all of FLAGS. -/
def Obligations.PushFlagsRule : Prop := RowHolds flagsRow

/-- R138: `push SP` (0x54) and `push r/m` with `mod = 11, rm = 100` push the SP of before the decrement. -/
def Obligations.PushSpPushesOldSp : Prop :=
  decode [0x54] = .ok (.pushSP none, []) ∧ decode [0xFF, 0xF4] = .ok (.pushRmRegister none 6 4, []) ∧
  ∀ pre s, s.Inv → StackWritable s →
    Completes (.pushSP pre) s s.regs.sp ∧ Completes (.pushRmRegister pre 6 4) s s.regs.sp

/-- R79: `0x50 + k` and `FF F0 + k` push the same register and leave the same end state, whatever prefix
either carries: with any accepted prefix byte, or none, in front, the two decode to the `push r` of register
`k` and to the register form of `push r/m` with `rm = k`, and these two run alike from every state. -/
def Obligations.TwoEncodingsOfOnePush : Prop :=
  ∀ (k : BitVec 3) (pre pre' : Option SegReg) (rest : List Byte),
    decode (preBytes pre ++ (0x50 + k.setWidth 8) :: rest) = .ok (pushRRow k pre, rest) ∧
    decode (preBytes pre' ++ 0xFF :: (0xF0 + k.setWidth 8) :: rest) =
      .ok (.pushRmRegister pre' 6 k, rest) ∧
    (∀ s, exec (pushRRow k pre) s = exec (.pushRmRegister pre' 6 k) s) ∧
    ∀ s, s.Inv → StackWritable s → Completes (pushRRow k pre) s (gprNumbered s.regs k)

/-! ### push r/m -/

/-- R82: the register form pushes the general-purpose register `rm`. -/
def Obligations.PushRmRegisterRule : Prop :=
  ∀ pre rm s, s.Inv →
    (StackWritable s → Completes (.pushRmRegister pre 6 rm) s (gprNumbered s.regs rm)) ∧
    (¬ StackWritable s → WriteFaults (.pushRmRegister pre 6 rm) s)

/-- R98, R88: the four memory forms push the word at their operand's address, as the offset and segment
tables give it, where the read and the stack write are admitted; with the read alone admitted they fault
in the write. -/
def Obligations.PushRmMemoryRule : Prop :=
  ∀ pre rm d8 d16, ∀ f ∈ memForms pre rm d8 d16, f.instr.wellFormed = true →
    ∀ s, s.Inv → memAdmits s.cfg (f.pa s) 2 = true →
      (StackWritable s → Completes f.instr s
        (wordOfBytes (Memory.read s.mem (f.pa s)) (Memory.read s.mem (nextPa s.cfg (f.pa s))))) ∧
      (¬ StackWritable s → WriteFaults f.instr s)

/-- R83, R84, R85: the reference resolver's operand for every `mod` and `rm`: sums modulo 2^16, an 8-bit
displacement sign-extended, SS by default where BP is a term and DS otherwise, the direct form in DS. -/
def Obligations.OffsetAndSegmentTable : Prop :=
  ∀ (reg rm : BitVec 3) (d8 : Byte) (d16 : Word) (r : RegFile),
    (rm ≠ 6 → resolve8086 ⟨0, reg, rm⟩ .none none r = .mem (defaultSegOf rm) (offsetTerms r rm)) ∧
    (resolve8086 ⟨0, reg, 6⟩ (.d16 d16) none r = .mem .ds d16) ∧
    (∃ off, resolve8086 ⟨1, reg, rm⟩ (.d8 d8) none r = .mem (defaultSegOf rm) off ∧
      off.toNat = ((offsetTerms r rm).toNat + (d8.signExtend 16).toNat) % 0x10000) ∧
    (∃ off, resolve8086 ⟨2, reg, rm⟩ (.d16 d16) none r = .mem (defaultSegOf rm) off ∧
      off.toNat = ((offsetTerms r rm).toNat + d16.toNat) % 0x10000)

/-- R86: an override prefix replaces the segment of a memory operand and nothing else: not a register
operand, not the instruction of any other form, and not the segment of the stack write, which stays SS. -/
def Obligations.OverrideMovesOnlyTheMemoryOperand : Prop :=
  (overrideOfByte 0x26 = some .es ∧ overrideOfByte 0x2E = some .cs ∧
    overrideOfByte 0x36 = some .ss ∧ overrideOfByte 0x3E = some .ds) ∧
  (∀ (m : ModRm) (d : Disp) (r : RegFile) (seg : SegReg), m.mod ≠ 0b11 → ∃ seg0 off,
    resolve8086 m d none r = .mem seg0 off ∧ resolve8086 m d (some seg) r = .mem seg off) ∧
  (∀ (i : Instr) (p : Option SegReg) (s : State), isMemoryForm i = false →
    exec (withPre p i) s = exec i s) ∧
  ∀ (i : Instr) (p : Option SegReg) (s t : State), s.Inv → exec (withPre p i) s = .next t →
    t.regs = spMoved s.regs ∧ ∀ a, a ≠ stackPa s → a ≠ nextPa s.cfg (stackPa s) →
      Memory.read t.mem a = Memory.read s.mem a

/-- R99 (b), R139: a memory form whose operand overlaps its stack slot reads the bytes of before the push.
The slot itself: memory is unchanged and only SP moves. One byte above, and one below: the old bytes move
by one. -/
def Obligations.OverlappingOperandReadsOldBytes : Prop :=
  ∀ pre rm d8 d16, ∀ f ∈ memForms pre rm d8 d16, f.instr.wellFormed = true →
    ∀ s, s.Inv → memAdmits s.cfg (f.pa s) 2 = true → StackWritable s → ∃ t,
      exec f.instr s = .next t ∧
      (f.pa s = stackPa s → t = { s with regs := spMoved s.regs }) ∧
      (f.pa s = nextPa s.cfg (stackPa s) →
        Memory.read t.mem (stackPa s) = Memory.read s.mem (f.pa s) ∧
        Memory.read t.mem (f.pa s) = Memory.read s.mem (nextPa s.cfg (f.pa s))) ∧
      (nextPa s.cfg (f.pa s) = stackPa s →
        Memory.read t.mem (stackPa s) = Memory.read s.mem (f.pa s) ∧
        Memory.read t.mem (nextPa s.cfg (stackPa s)) = Memory.read s.mem (stackPa s))

/-- R92: SP is no term of a memory operand: the operand word of a memory form is the same whatever SP
holds. -/
def Obligations.MemoryOperandIgnoresSp : Prop :=
  ∀ (i : Instr) (s : State) (x : Word), isMemoryForm i = true →
    source resolve8086 (invocationOf i) (withReg (.gpr .sp) x s) =
      source resolve8086 (invocationOf i) s

/-- R90, R91: what the block does for ANY resolver that gives `Reg(rm)` exactly when `mod = 11`: the
register form pushes `GPR[rm]`; the memory form reads one word, through `MemRead`, and pushes it, or faults
with nothing changed. The reference resolver is one. -/
def Obligations.AnyLawfulResolver : Prop :=
  Resolver.Lawful resolve8086 ∧
  ∀ (R : Resolver), R.Lawful → ∀ (op : Byte) (m : ModRm) (d : Disp) (pre : Option SegReg) (s : State),
    m.reg = 6 → s.Inv → StackWritable s →
      (m.mod = 0b11 → ∃ t, invoke R (.pushRm op m d pre) s = .next t ∧
        Pushed s t (gprNumbered s.regs m.rm)) ∧
      (m.mod ≠ 0b11 → ∃ seg off, R m d pre s.regs = .mem seg off ∧
        (memAdmits s.cfg (phys s.cfg (segValue s.regs seg) off) 2 = true →
          ∃ t, invoke R (.pushRm op m d pre) s = .next t ∧
            Pushed s t (loadWord s.cfg s.mem (phys s.cfg (segValue s.regs seg) off))) ∧
        (memAdmits s.cfg (phys s.cfg (segValue s.regs seg) off) 2 = false →
          invoke R (.pushRm op m d pre) s =
            .fault (.memReadFault (phys s.cfg (segValue s.regs seg) off) 2
              { s with fault := some (.memRead (phys s.cfg (segValue s.regs seg) off) 2) })))

/-! ### Every push -/

/-- R97, the postcondition of every push that returns `Done`. -/
def Obligations.EveryPushPostcondition : Prop :=
  ∀ (i : Instr) (s t : State), s.Inv → exec i s = .next t →
    ∃ v, source resolve8086 (invocationOf i) s = .ok v ∧ Pushed s t v

/-- R100, R103, R106: the handlers look at the opcode bits the spec names and at no other. -/
def Obligations.HandlersReadOnlyTheirField : Prop :=
  ∀ (R : Resolver) (op op' : Byte) (s : State),
    (op.toNat % 8 = op'.toNat % 8 → invoke R (.pushR op) s = invoke R (.pushR op') s) ∧
    (op.toNat / 8 % 4 = op'.toNat / 8 % 4 → invoke R (.pushSr op) s = invoke R (.pushSr op') s) ∧
    invoke R (.pushf op) s = invoke R (.pushf op') s

/-- R108, R115: at SP = 0 and SP = 1 every push wraps SP to 0xFFFE and 0xFFFF, writes there, and reports
nothing: it completes wherever its source resolves and its write is admitted. -/
def Obligations.SpWrapIsNoFault : Prop :=
  ∀ (i : Instr) (s : State) (v : Word), s.Inv → source resolve8086 (invocationOf i) s = .ok v →
    (s.regs.sp = 0 → memAdmits s.cfg (phys s.cfg s.regs.ss 0xFFFE) 2 = true → ∃ t,
      exec i s = .next t ∧ t.regs.sp = 0xFFFE ∧
      Memory.read t.mem (phys s.cfg s.regs.ss 0xFFFE) = lowByte v ∧
      Memory.read t.mem (nextPa s.cfg (phys s.cfg s.regs.ss 0xFFFE)) = highByte v) ∧
    (s.regs.sp = 1 → memAdmits s.cfg (phys s.cfg s.regs.ss 0xFFFF) 2 = true → ∃ t,
      exec i s = .next t ∧ t.regs.sp = 0xFFFF ∧
      Memory.read t.mem (phys s.cfg s.regs.ss 0xFFFF) = lowByte v ∧
      Memory.read t.mem (nextPa s.cfg (phys s.cfg s.regs.ss 0xFFFF)) = highByte v)

/-- R26: FLAGS is opaque. No instruction changes it, `pushf` pushes all 16 bits of it, and what any other
instruction does is the same whatever it holds. -/
def Obligations.FlagsAreOpaque : Prop :=
  (∀ (i : Instr) (s t : State), exec i s = .next t → t.regs.flags = s.regs.flags) ∧
  (∀ pre s, s.Inv → StackWritable s → Completes (.pushf pre) s s.regs.flags) ∧
  ∀ (i : Instr) (s t : State) (x : Word), (∀ pre, i ≠ .pushf pre) → exec i s = .next t →
    exec i (withReg .flags x s) = .next (withReg .flags x t)

/-- R52: no form but a memory form reads memory, and a memory form reads its operand word alone: with the
memory replaced by any that agrees on that word, the instruction pushes the same word. -/
def Obligations.PushReadsAtMostItsOperandWord : Prop :=
  (∀ (i : Instr) (s t : State) (m : Memory), s.Inv → isMemoryForm i = false → exec i s = .next t →
    exec i { s with mem := m } =
      .next { t with mem := storeWord s.cfg m (stackPa s) (loadWord s.cfg t.mem (stackPa s)) }) ∧
  ∀ pre rm d8 d16, ∀ f ∈ memForms pre rm d8 d16, f.instr.wellFormed = true →
    ∀ (s t : State) (m : Memory), s.Inv →
      loadWord s.cfg m (f.pa s) = loadWord s.cfg s.mem (f.pa s) → exec f.instr s = .next t →
      exec f.instr { s with mem := m } =
        .next { t with mem := storeWord s.cfg m (stackPa s) (loadWord s.cfg t.mem (stackPa s)) }

/-! ### Faults -/

/-- R96, R112: the `PUSH_RM` handler stops before any step where the register field is not 6, whatever the
opcode, resolver and operand; `exec` reaches that with each of the five forms and with no other
instruction; registers and memory are as before, and no instruction runs after it. -/
def Obligations.ContractViolationStopsFirst : Prop :=
  (∀ (R : Resolver) (op : Byte) (m : ModRm) (d : Disp) (pre : Option SegReg) (s : State), m.reg ≠ 6 →
    invoke R (.pushRm op m d pre) s = .fault (.contractViolation op m.reg
      { s with fault := some (.contractViolation op m.reg) })) ∧
  (∀ (pre : Option SegReg) (reg rm : BitVec 3) (d8 : Byte) (d16 : Word) (s : State), reg ≠ 6 →
    ∀ i ∈ [Instr.pushRmRegister pre reg rm, .pushRmDisp16 pre reg d16, .pushRmBaseIndex pre reg rm,
        .pushRmBaseIndexDisp8 pre reg rm d8, .pushRmBaseIndexDisp16 pre reg rm d16],
      exec i s = .fault (.contractViolation 0xFF reg
        { s with fault := some (.contractViolation 0xFF reg) })) ∧
  (∀ (i : Instr) (s left : State) (op : Byte) (reg : BitVec 3),
    exec i s = .fault (.contractViolation op reg left) →
      i.wellFormed = false ∧ reg ≠ 6 ∧ (Fault.contractViolation op reg left).cause.code = 1 ∧
      step left = .fault (.contractViolation op reg left))

/-- R113: a memory form whose operand read is not admitted faults with every register and byte as before,
whether or not its stack write would be admitted; no other instruction raises this fault. -/
def Obligations.ReadFaultChangesNothing : Prop :=
  (∀ pre rm d8 d16, ∀ f ∈ memForms pre rm d8 d16, f.instr.wellFormed = true →
    ∀ s, memAdmits s.cfg (f.pa s) 2 = false →
      exec f.instr s = .fault (.memReadFault (f.pa s) 2
        { s with fault := some (.memRead (f.pa s) 2) })) ∧
  ∀ (i : Instr) (s left : State) (pa size : Nat),
    exec i s = .fault (.memReadFault pa size left) →
      isMemoryForm i = true ∧ size = 2 ∧ (Fault.memReadFault pa size left).cause.code = 2

/-- R114: every push whose source resolves and whose stack write is not admitted faults with SP moved,
every other register as before and memory unchanged; and a write fault arises in no other way. -/
def Obligations.WriteFaultLeavesSpMoved : Prop :=
  ∀ (i : Instr) (s : State),
    (∀ v, source resolve8086 (invocationOf i) s = .ok v → ¬ StackWritable s → WriteFaults i s) ∧
    ∀ pa size left, exec i s = .fault (.memWriteFault pa size left) →
      ¬ StackWritable s ∧ pa = stackPa s ∧ size = 2 ∧
      (Fault.memWriteFault pa size left).cause.code = 3 ∧
      left.regs = spMoved s.regs ∧ left.mem = s.mem ∧ left.ip = s.ip

/-- R119: one fault at most, the first in step order. A well-formed push completes exactly where its source
resolves and its write is admitted; a source that fails is reported whether or not the write would be
admitted, with SP unchanged; a contract violation is reported whether or not the read would be. -/
def Obligations.FaultsComeInStepOrder : Prop :=
  (∀ (i : Instr) (s : State) (c : FaultCause), source resolve8086 (invocationOf i) s = .error c →
    ∃ f, exec i s = .fault f ∧ f.cause = c ∧ f.left = { s with fault := some c }) ∧
  (∀ (i : Instr) (s : State), (∃ t, exec i s = .next t) ↔
    (∃ v, source resolve8086 (invocationOf i) s = .ok v) ∧ StackWritable s) ∧
  ∀ (op : Byte) (m : ModRm) (d : Disp) (pre : Option SegReg) (s : State), m.reg ≠ 6 →
    ∀ R, source R (.pushRm op m d pre) s = .error (.contractViolation op m.reg)

/-- R130: the cause codes, and R118: the two classes. -/
def Obligations.FaultCodes : Prop :=
  ∀ (op : Byte) (reg : BitVec 3) (pa : Nat) (s : State),
    (faultOf (.contractViolation op reg) s = .contractViolation op reg s ∧
      (FaultCause.contractViolation op reg).code = 1 ∧
      (FaultCause.contractViolation op reg).guestVisible = false) ∧
    (faultOf (.memRead pa 2) s = .memReadFault pa 2 s ∧ (FaultCause.memRead pa 2).code = 2 ∧
      (FaultCause.memRead pa 2).guestVisible = true) ∧
    (faultOf (.memWrite pa 2) s = .memWriteFault pa 2 s ∧ (FaultCause.memWrite pa 2).code = 3 ∧
      (FaultCause.memWrite pa 2).guestVisible = true)

/-! ### The sequencer and the run -/

/-- A step runs the decoded instruction: where the bytes at CS:IP decode to `i`, the step is `exec i`, with
IP moved past it on `Done` and left on a fault (R25); the length is that of the bytes read. -/
def Obligations.StepRunsTheDecodedInstruction : Prop :=
  ∀ (s : State) (i : Instr) (rest : List Byte), s.Running → decode (fetched s) = .ok (i, rest) →
    i.wellFormed = true ∧ (fetched s).length = instrLength i + rest.length ∧
    (∀ t, exec i s = .next t → step s = .next { t with ip := s.ip + BitVec.ofNat 16 (instrLength i) }) ∧
    (∀ f, exec i s = .fault f → step s = .fault f ∧ f.left.ip = s.ip)

/-- R75: how far a completed step moves IP, by form, a prefix counting one more. -/
def Obligations.StepAdvancesIpByTheLengthTable : Prop :=
  ∀ (s t : State), step s = .next t → ∃ i rest, decode (fetched s) = .ok (i, rest) ∧
    t.ip.toNat = (s.ip.toNat + (if (preOf i).isSome then 1 else 0) + formLength i) % 0x10000

/-- R25: no rule of the block reads or writes IP. -/
def Obligations.BlockIgnoresIp : Prop :=
  ∀ (i : Instr) (s : State) (x : Word),
    (∀ t, exec i s = .next t → t.ip = s.ip ∧ exec i { s with ip := x } = .next { t with ip := x }) ∧
    (∀ f, exec i s = .fault f → f.left.ip = s.ip ∧
      exec i { s with ip := x } = .fault (faultOf f.cause { f.left with ip := x }))

/-- R77, R117: bytes without an instruction are refused under their reason, the state unchanged but for the
mark and IP left at the instruction's first byte. -/
def Obligations.StepRefusesByReason : Prop :=
  ∀ s : State, s.Running →
    (decode (fetched s) = .error .notPushFamily →
      step s = .refused (.notPushFamily { s with refused := some .notPushFamily })) ∧
    (decode (fetched s) = .error .unsupportedPrefix →
      step s = .refused (.unsupportedPrefix { s with refused := some .unsupportedPrefix }))

/-- R17: `Done` is the only outcome a further instruction may run from. A step that answers a next state
starts and ends with no mark; a fault and a refusal set theirs, and the state they leave answers the same
for ever. -/
def Obligations.StopsAreFinal : Prop :=
  ∀ s : State,
    (∀ t, step s = .next t → s.Running ∧ t.Running) ∧
    (∀ f, step s = .fault f → f.left.fault = some f.cause ∧ step f.left = .fault f) ∧
    (∀ r, step s = .refused r → ∃ q left, r = refusalOf q left ∧ left.refused = some q ∧
      step left = .refused r ∧ left = { s with refused := some q })

/-- R131: with the reference dispatch a step never raises `ContractViolation`, and a run with a mark set has
not ended well. -/
def Obligations.ReferenceDispatchNeverViolates : Prop :=
  (∀ (s left : State) (op : Byte) (reg : BitVec 3), s.fault = none →
    step s ≠ .fault (.contractViolation op reg left)) ∧
  ∀ (l : Launch) (s : State), l.endsWell s = true → s.Running

/-- R23, R27, R29: over a whole step, whatever its outcome, no segment register, FLAGS, parameter or
general-purpose register but SP changes. -/
def Obligations.StepWritesNoRegisterButSp : Prop :=
  ∀ s : State,
    (∀ t, step s = .next t → t.regs = spMoved s.regs ∧ t.cfg = s.cfg) ∧
    (∀ f, step s = .fault f →
      (f.left.regs = s.regs ∨ f.left.regs = spMoved s.regs) ∧ f.left.cfg = s.cfg ∧
      f.left.mem = s.mem)

/-- R61: every fetch reads memory as it is then, so the fetch after a push sees it: a byte fetched from the
word a completed step wrote is the written word's byte, and any other byte fetched is as it was before. That
a byte past offset 0xFFFF is fetched from offset 0x0000 on is the model's choice (log entry 5). -/
def Obligations.FetchSeesTheWordPushed : Prop :=
  (∀ (t : State) (n : Nat) (b : Byte), (fetched t)[n]? = some b →
    b = Memory.read t.mem (phys t.cfg t.regs.cs (t.ip + BitVec.ofNat 16 n))) ∧
  ∀ (s t : State) (i : Instr) (rest : List Byte) (v : Word) (n : Nat) (b : Byte), s.Inv →
    decode (fetched s) = .ok (i, rest) → source resolve8086 (invocationOf i) s = .ok v →
    step s = .next t → (fetched t)[n]? = some b →
      let a := phys t.cfg t.regs.cs (t.ip + BitVec.ofNat 16 n)
      b = if a = nextPa s.cfg (stackPa s) then highByte v
        else if a = stackPa s then lowByte v
        else Memory.read s.mem a

/-- R137: a launch whose program would run past IP = 0xFFFF is refused as `IpWrap`; any other starts with
the registers, IP and parameters it is given, no mark, and its program at `Phys(CS, IP0)` onward. -/
def Obligations.LaunchPlacesTheProgram : Prop :=
  ∀ l : Launch,
    (0x10000 < l.ip0.toNat + l.program.length →
      launch l = .refused (.ipWrap { l.bare with refused := some .ipWrap })) ∧
    (l.ip0.toNat + l.program.length ≤ 0x10000 → ∃ s, launch l = .next s ∧
      s.regs = l.regs ∧ s.ip = l.ip0 ∧ s.cfg = l.cfg ∧ s.Running ∧
      (Memory.wf l.mem → l.program.length ≤ 2 ^ l.cfg.paWidth → ∀ n b, l.program[n]? = some b →
        Memory.read s.mem ((phys l.cfg l.regs.cs l.ip0 + n) % 2 ^ l.cfg.paWidth) = b))

/-- What the host loads is what the next step fetches, in any address space of three bits or more where the
memory subsystem performs the fetch (log entry 8). -/
def Obligations.FetchWordIsFetched : Prop :=
  ∀ (s : State) (nbits w : Nat), s.Inv → 3 ≤ s.cfg.paWidth →
    (∀ n < 5, memAdmits s.cfg (codePa s (s.ip + BitVec.ofNat 16 n)) 1 = true) →
    fetched (s.withFetchWord nbits w) = tableBytes nbits w ∧ (s.withFetchWord nbits w).Running

/-- R135: pushes in a row complete wherever each one's stack word is admitted, and the first whose word is
not admitted ends the run in `MemWriteFault` there. For the forms that read no memory. -/
def Obligations.PushesInARow : Prop :=
  ∀ (is : List Instr) (s : State), s.Inv →
    (∀ i ∈ is, i.wellFormed = true ∧ isMemoryForm i = false) →
    ((∀ j, 1 ≤ j → j ≤ is.length → memAdmits s.cfg (stackPaOf s j) 2 = true) →
      ∃ t, pushAll is s = .next t ∧ t.Inv ∧
        t.regs = writeReg s.regs (.gpr .sp) (s.regs.sp - BitVec.ofNat 16 (2 * is.length))) ∧
    ∀ n, 1 ≤ n → n ≤ is.length → (∀ j, 1 ≤ j → j < n → memAdmits s.cfg (stackPaOf s j) 2 = true) →
      memAdmits s.cfg (stackPaOf s n) 2 = false →
      ∃ left, pushAll is s = .fault (.memWriteFault (stackPaOf s n) 2 left) ∧
        left.regs.sp = s.regs.sp - BitVec.ofNat 16 (2 * n)

/-! ### Reset and the invariant -/

/-- R35, R132: the fault record and the refusal mark are clear at the start. The other clauses are the
model's own choices (log entries 1, 2 and 4): every register zero, no byte listed, the reference
parameters. -/
def Obligations.ResetState : Prop :=
  State.reset.fault = none ∧ State.reset.refused = none ∧
  (∀ id, readReg State.reset.regs id = 0) ∧ State.reset.ip = 0 ∧ State.reset.mem = [] ∧
  State.reset.cfg.paWidth = 20 ∧
  ∀ pa n, memAdmits State.reset.cfg pa n = decide (pa < 2 ^ 20)

/-- The invariant holds at reset. -/
def Obligations.ResetKeepsForm : Prop := State.reset.Inv

/-- Every step keeps the invariant: the address width legal, memory in canonical form and inside the
physical address space (R31, R42); the state a fault leaves keeps it too. -/
def Obligations.StepKeepsForm : Prop :=
  ∀ s : State, s.Inv →
    (∀ t, step s = .next t → t.Inv) ∧ (∀ f, step s = .fault f → f.left.Inv)

/-- Every state a launched run reaches has the invariant, for every program, launch state and set of
parameters. -/
def Obligations.RunsKeepForm : Prop :=
  ∀ (l : Launch) (n : Nat) (s t : State), l.bare.Inv → launch l = .next s → runFrom l n s = .next t →
    t.Inv
end

