-- ==== Sys2Proof/Laws/Config.lean ====
section
/-! SUPPORT. Holding the admission predicate as data loses none: the parameter `mem_admits` of 20_memory.md
R45 is arbitrary, and every predicate on the physical addresses and access sizes is some Config's. -/

namespace Sys2Proof.Laws

open Sys2Proof.Machine

/-- The configuration that refuses exactly the accesses of up to `n` bytes that `p` refuses. -/
def configOf (paWidth n : Nat) (p : Nat → Nat → Bool) : Config where
  paWidth := paWidth
  refuses := ((List.range (2 ^ paWidth)).flatMap fun pa =>
    ((List.range (n + 1)).filter fun k => !p pa k).map fun k => ⟨pa, pa, k⟩)

/-- Every predicate `mem_admits` is a Config's. -/
theorem every_mem_admits_is_a_config (paWidth n : Nat) (p : Nat → Nat → Bool) {pa k : Nat}
    (hpa : pa < 2 ^ paWidth) (hk : k ≤ n) : memAdmits (configOf paWidth n p) pa k = p pa k := by
  have hin : memAdmits (configOf paWidth n p) pa k = true ↔ p pa k = true := by
    simp only [memAdmits, configOf, Bool.and_eq_true, List.all_eq_true,
      List.mem_flatMap, List.mem_map, List.mem_filter, List.mem_range, Bool.not_eq_true',
      forall_exists_index, and_imp]
    constructor
    · rintro ⟨-, h⟩
      by_contra hp
      have := h ⟨pa, pa, k⟩ pa hpa k (by omega) (by simpa using hp) rfl
      simp at this
    · intro hp
      refine ⟨decide_eq_true hpa, ?_⟩
      rintro _ pa' - k' - hp' rfl
      by_contra hc
      simp only [Bool.not_eq_false, Bool.and_eq_true, decide_eq_true_eq, beq_iff_eq] at hc
      obtain ⟨⟨h1, h2⟩, rfl⟩ := hc
      rw [show pa' = pa by omega, hp] at hp'
      cases hp'
  cases hp : p pa k with
  | true => exact hin.mpr hp
  | false =>
    cases hm : memAdmits (configOf paWidth n p) pa k with
    | false => rfl
    | true => rw [hin.mp hm] at hp; cases hp

end Sys2Proof.Laws
end

