-- ==== Sys2Proof/Laws/Decode.lean ====
section
/-! SUPPORT. The small facts of the encoding tables. -/

namespace Sys2Proof

@[simp] theorem overrideOfByte_overrideByte (r : SegReg) : overrideOfByte (overrideByte r) = some r := by
  cases r <;> rfl

/-- The override table read backwards. -/
theorem overrideByte_of_overrideOfByte {b : Byte} {r : SegReg} (h : overrideOfByte b = some r) :
    overrideByte r = b := by
  unfold overrideOfByte at h
  split at h
  · next hb => cases h; exact hb.symm
  · split at h
    · next hb => cases h; exact hb.symm
    · split at h
      · next hb => cases h; exact hb.symm
      · split at h
        · next hb => cases h; exact hb.symm
        · cases h

/-- The three ModRM fields survive their byte. -/
@[simp] theorem modRmOfByte_modRmByte (m : ModRm) : modRmOfByte (modRmByte m) = m := by
  have key : ∀ (a : BitVec 2) (b c : BitVec 3), modRmOfByte (modRmByte ⟨a, b, c⟩) = ⟨a, b, c⟩ := by
    decide
  exact key m.mod m.reg m.rm

/-- A ModRM byte is its three fields. -/
@[simp] theorem modRmByte_modRmOfByte (b : Byte) : modRmByte (modRmOfByte b) = b := by
  revert b
  decide

/-- The register table is one to one (R20). -/
theorem gprOfIndex_injective : Function.Injective gprOfIndex := by
  have key : ∀ j k : BitVec 3, gprOfIndex j = gprOfIndex k → j = k := by decide
  exact fun j k => key j k

/-- The segment register table is one to one (R28). -/
theorem segOfIndex_injective : Function.Injective segOfIndex := by
  have key : ∀ j k : BitVec 2, segOfIndex j = segOfIndex k → j = k := by decide
  exact fun j k => key j k

end Sys2Proof
end

