-- ==== Sys2Proof/Laws/Memory.lean ====
section
/-! SUPPORT. Reading after writing, and the canonical form. -/

namespace Sys2Proof.Machine

/-! ### Reading -/

@[simp] theorem read_nil (a : Nat) : Memory.read [] a = unlistedByte := rfl

theorem read_cons (b : Nat) (v : Byte) (m : Memory) (a : Nat) :
    Memory.read ((b, v) :: m) a = if a = b then v else Memory.read m a := rfl

/-- An address below every listed one reads as unlisted. -/
theorem read_of_below {m : Memory} {a : Nat} (h : ∀ c ∈ m, a < c.1) :
    Memory.read m a = unlistedByte := by
  induction m with
  | nil => rfl
  | cons c m ih =>
    have hc := h c List.mem_cons_self
    rw [show c = (c.1, c.2) from rfl, read_cons, if_neg (by omega)]
    exact ih fun d hd => h d (List.mem_cons_of_mem _ hd)

theorem read_cell (a : Nat) (v : Byte) {m : Memory} (hm : Memory.read m a = unlistedByte) (x : Nat) :
    Memory.read (Memory.cell a v m) x = if x = a then v else Memory.read m x := by
  unfold Memory.cell
  split
  · split <;> simp_all
  · rfl

/-! ### The canonical form -/

theorem wf_tail {c : Host.Cell} {m : Memory} (h : Memory.wf (c :: m)) : Memory.wf m :=
  ⟨(List.pairwise_cons.mp h.1).2, fun d hd => h.2 d (List.mem_cons_of_mem _ hd)⟩

theorem wf_head_below {c : Host.Cell} {m : Memory} (h : Memory.wf (c :: m)) : ∀ d ∈ m, c.1 < d.1 :=
  (List.pairwise_cons.mp h.1).1

theorem wf_cell {a : Nat} {v : Byte} {m : Memory} (h : Memory.wf m) (ha : ∀ d ∈ m, a < d.1) :
    Memory.wf (Memory.cell a v m) := by
  unfold Memory.cell
  split
  · exact h
  · next hv =>
    refine ⟨List.pairwise_cons.mpr ⟨ha, h.1⟩, ?_⟩
    intro d hd
    rcases List.mem_cons.mp hd with rfl | hd
    · exact hv
    · exact h.2 d hd

theorem mem_cell {a : Nat} {v : Byte} {m : Memory} {d : Host.Cell} (h : d ∈ Memory.cell a v m) :
    d = (a, v) ∨ d ∈ m := by
  unfold Memory.cell at h
  split at h
  · exact .inr h
  · exact List.mem_cons.mp h

/-- Every cell of the memory after a write is the written one or was there before. -/
theorem mem_write {m : Memory} {a : Nat} {v : Byte} {d : Host.Cell} (h : d ∈ Memory.write m a v) :
    d = (a, v) ∨ d ∈ m := by
  induction m with
  | nil => exact mem_cell h
  | cons c m ih =>
    obtain ⟨b, w⟩ := c
    simp only [Memory.write] at h
    split at h
    · exact mem_cell h
    · split at h
      · exact (mem_cell h).imp_right (List.mem_cons_of_mem _)
      · rcases List.mem_cons.mp h with rfl | h
        · exact .inr List.mem_cons_self
        · exact (ih h).imp_right (List.mem_cons_of_mem _)

/-- A write keeps the canonical form. -/
theorem write_wf {m : Memory} (h : Memory.wf m) (a : Nat) (v : Byte) :
    Memory.wf (Memory.write m a v) := by
  induction m with
  | nil => exact wf_cell h (by simp)
  | cons c m ih =>
    obtain ⟨b, w⟩ := c
    have hb := wf_head_below h
    simp only [Memory.write]
    split
    · next hab =>
      refine wf_cell h fun d hd => ?_
      rcases List.mem_cons.mp hd with rfl | hd
      · exact hab
      · exact Nat.lt_trans hab (hb d hd)
    · split
      · next hab => exact wf_cell (wf_tail h) fun d hd => hab ▸ hb d hd
      · refine ⟨List.pairwise_cons.mpr ⟨fun d hd => ?_, (ih (wf_tail h)).1⟩, fun d hd => ?_⟩
        · rcases mem_write hd with rfl | hd
          · simp only; omega
          · exact hb d hd
        · rcases List.mem_cons.mp hd with rfl | hd
          · exact h.2 _ List.mem_cons_self
          · exact (ih (wf_tail h)).2 d hd

/-- A write at a physical address keeps every listed address physical. -/
theorem write_inRange {m : Memory} {w : Nat} (h : Memory.inRange m w) {a : Nat} (ha : a < 2 ^ w)
    (v : Byte) : Memory.inRange (Memory.write m a v) w := by
  intro d hd
  rcases mem_write hd with rfl | hd
  · exact ha
  · exact h d hd

/-! ### Read after write -/

/-- What every address reads as after a byte is written. -/
theorem read_write {m : Memory} (h : Memory.wf m) (a : Nat) (v : Byte) (x : Nat) :
    Memory.read (Memory.write m a v) x = if x = a then v else Memory.read m x := by
  induction m with
  | nil => exact read_cell a v rfl x
  | cons c m ih =>
    obtain ⟨b, w⟩ := c
    have hb := wf_head_below h
    simp only [Memory.write]
    split
    · next hab =>
      refine read_cell a v (read_of_below fun d hd => ?_) x
      rcases List.mem_cons.mp hd with rfl | hd
      · exact hab
      · exact Nat.lt_trans hab (hb d hd)
    · split
      · next hab =>
        subst hab
        rw [read_cell a v (read_of_below hb)]
        split
        · rfl
        · next hx => rw [read_cons, if_neg hx]
      · next hab =>
        rw [read_cons, read_cons, ih (wf_tail h)]
        split
        · next hx => rw [if_neg (by omega)]
        · rfl

theorem read_write_same {m : Memory} (h : Memory.wf m) (a : Nat) (v : Byte) :
    Memory.read (Memory.write m a v) a = v := by
  rw [read_write h, if_pos rfl]

theorem read_write_other {m : Memory} (h : Memory.wf m) {a x : Nat} (v : Byte) (hx : x ≠ a) :
    Memory.read (Memory.write m a v) x = Memory.read m x := by
  rw [read_write h, if_neg hx]

/-! ### Words -/

/-- The byte after the last address is the first: the successor stays a physical address. -/
theorem nextPa_lt (c : Config) (pa : Nat) : nextPa c pa < 2 ^ c.paWidth :=
  Nat.mod_lt _ (Nat.two_pow_pos _)

/-- A word's two bytes are two bytes, in every address space of at least two. -/
theorem nextPa_ne {c : Config} (hc : c.wf) {pa : Nat} (hpa : pa < 2 ^ c.paWidth) : nextPa c pa ≠ pa := by
  have h2 : 2 ≤ 2 ^ c.paWidth := by
    calc 2 = 2 ^ 1 := rfl
      _ ≤ 2 ^ c.paWidth := Nat.pow_le_pow_right (by decide) hc
  unfold nextPa
  rcases Nat.lt_or_ge (pa + 1) (2 ^ c.paWidth) with h | h
  · rw [Nat.mod_eq_of_lt h]; omega
  · have : pa + 1 = 2 ^ c.paWidth := by omega
    rw [this, Nat.mod_self]; omega

theorem phys_lt (c : Config) (seg off : Word) : phys c seg off < 2 ^ c.paWidth :=
  Nat.mod_lt _ (Nat.two_pow_pos _)

theorem storeWord_wf {m : Memory} (h : Memory.wf m) (c : Config) (pa : Nat) (v : Word) :
    Memory.wf (storeWord c m pa v) := write_wf (write_wf h _ _) _ _

theorem storeWord_inRange {m : Memory} {c : Config} (h : Memory.inRange m c.paWidth) {pa : Nat}
    (hpa : pa < 2 ^ c.paWidth) (v : Word) : Memory.inRange (storeWord c m pa v) c.paWidth :=
  write_inRange (write_inRange h hpa _) (nextPa_lt c pa) _

/-- What every address reads as after a word is stored: the high byte at its second address, the low byte
at its first, and every other byte as before. -/
theorem read_storeWord {m : Memory} (h : Memory.wf m) (c : Config) (pa : Nat) (v : Word) (x : Nat) :
    Memory.read (storeWord c m pa v) x =
      if x = nextPa c pa then highByte v else if x = pa then lowByte v else Memory.read m x := by
  unfold storeWord
  rw [read_write (write_wf h _ _), read_write h]

theorem wordOfBytes_low_high (v : Word) : wordOfBytes (lowByte v) (highByte v) = v := by
  simp only [wordOfBytes, lowByte, highByte]
  ext i hi
  simp only [BitVec.getElem_append, BitVec.getElem_extractLsb']
  split
  · simp [BitVec.getLsbD_eq_getElem hi]
  · rw [show 8 + (i - 8) = i by omega, BitVec.getLsbD_eq_getElem hi]

@[simp] theorem lowByte_wordOfBytes (lo hi : Byte) : lowByte (wordOfBytes lo hi) = lo := by
  show BitVec.extractLsb' 0 8 (hi ++ lo : BitVec (8 + 8)) = lo
  ext i h
  rw [BitVec.getElem_extractLsb', BitVec.getLsbD_append, if_pos (by omega), Nat.zero_add,
    BitVec.getLsbD_eq_getElem h]

@[simp] theorem highByte_wordOfBytes (lo hi : Byte) : highByte (wordOfBytes lo hi) = hi := by
  show BitVec.extractLsb' 8 8 (hi ++ lo : BitVec (8 + 8)) = hi
  ext i h
  rw [BitVec.getElem_extractLsb', BitVec.getLsbD_append, if_neg (by omega),
    Nat.add_sub_cancel_left, BitVec.getLsbD_eq_getElem h]

end Sys2Proof.Machine
end

