-- ==== Sys2Proof/Laws/State.lean ====
section
/-! SUPPORT. What each named update of the state leaves in each field, and the laws of the register file
port. -/

namespace Sys2Proof.Machine

/-! ### Register file -/

@[simp] theorem readReg_writeReg_same (r : RegFile) (id : RegId) (v : Word) :
    readReg (writeReg r id v) id = v := by
  rcases id with g | g | _ <;> first | rfl | (cases g <;> rfl)

theorem readReg_writeReg_other (r : RegFile) {id id' : RegId} (v : Word) (h : id' ≠ id) :
    readReg (writeReg r id v) id' = readReg r id' := by
  rcases id with g | g | _ <;> rcases id' with g' | g' | _ <;>
    (try cases g) <;> (try cases g') <;> first | rfl | exact absurd rfl h

/-- Two register files that every identifier reads alike are equal. -/
theorem RegFile.eq_of_readReg {r r' : RegFile} (h : ∀ id, readReg r id = readReg r' id) : r = r' := by
  cases r
  cases r'
  simp only [RegFile.mk.injEq]
  exact ⟨h (.gpr .ax), h (.gpr .cx), h (.gpr .dx), h (.gpr .bx), h (.gpr .sp), h (.gpr .bp),
    h (.gpr .si), h (.gpr .di), h (.seg .es), h (.seg .cs), h (.seg .ss), h (.seg .ds), h .flags⟩

/-! ### decrementSp -/

@[simp] theorem decrementSp_regs (s : State) :
    (decrementSp s).regs = writeReg s.regs (.gpr .sp) (spNew s.regs) := rfl
@[simp] theorem decrementSp_ip (s : State) : (decrementSp s).ip = s.ip := rfl
@[simp] theorem decrementSp_mem (s : State) : (decrementSp s).mem = s.mem := rfl
@[simp] theorem decrementSp_cfg (s : State) : (decrementSp s).cfg = s.cfg := rfl
@[simp] theorem decrementSp_fault (s : State) : (decrementSp s).fault = s.fault := rfl
@[simp] theorem decrementSp_refused (s : State) : (decrementSp s).refused = s.refused := rfl

/-! ### clearMarks -/

@[simp] theorem clearMarks_regs (s : State) : (clearMarks s).regs = s.regs := rfl
@[simp] theorem clearMarks_ip (s : State) : (clearMarks s).ip = s.ip := rfl
@[simp] theorem clearMarks_mem (s : State) : (clearMarks s).mem = s.mem := rfl
@[simp] theorem clearMarks_cfg (s : State) : (clearMarks s).cfg = s.cfg := rfl
@[simp] theorem clearMarks_fault (s : State) : (clearMarks s).fault = none := rfl
@[simp] theorem clearMarks_refused (s : State) : (clearMarks s).refused = none := rfl

/-! ### Launch.bare -/

@[simp] theorem bare_regs (l : Launch) : l.bare.regs = l.regs := rfl
@[simp] theorem bare_ip (l : Launch) : l.bare.ip = l.ip0 := rfl
@[simp] theorem bare_mem (l : Launch) : l.bare.mem = l.mem := rfl
@[simp] theorem bare_cfg (l : Launch) : l.bare.cfg = l.cfg := rfl
@[simp] theorem bare_fault (l : Launch) : l.bare.fault = none := rfl
@[simp] theorem bare_refused (l : Launch) : l.bare.refused = none := rfl

/-! ### placeCode -/

/-- Placing code changes memory alone. -/
theorem placeCode_eq (s : State) (off : Word) (bs : List Byte) :
    ∃ m, placeCode s off bs = { s with mem := m } := by
  induction bs generalizing s off with
  | nil => exact ⟨s.mem, rfl⟩
  | cons b bs ih =>
    obtain ⟨m, hm⟩ := ih { s with mem := Memory.write s.mem (codePa s off) b } (off + 1)
    exact ⟨m, hm⟩

@[simp] theorem placeCode_regs (s : State) (off : Word) (bs : List Byte) :
    (placeCode s off bs).regs = s.regs := by
  obtain ⟨m, h⟩ := placeCode_eq s off bs
  rw [h]

@[simp] theorem placeCode_ip (s : State) (off : Word) (bs : List Byte) :
    (placeCode s off bs).ip = s.ip := by
  obtain ⟨m, h⟩ := placeCode_eq s off bs
  rw [h]

@[simp] theorem placeCode_cfg (s : State) (off : Word) (bs : List Byte) :
    (placeCode s off bs).cfg = s.cfg := by
  obtain ⟨m, h⟩ := placeCode_eq s off bs
  rw [h]

@[simp] theorem placeCode_fault (s : State) (off : Word) (bs : List Byte) :
    (placeCode s off bs).fault = s.fault := by
  obtain ⟨m, h⟩ := placeCode_eq s off bs
  rw [h]

@[simp] theorem placeCode_refused (s : State) (off : Word) (bs : List Byte) :
    (placeCode s off bs).refused = s.refused := by
  obtain ⟨m, h⟩ := placeCode_eq s off bs
  rw [h]

/-! ### What a fault and a refusal carry -/

@[simp] theorem faultOf_cause (c : FaultCause) (s : State) : (faultOf c s).cause = c := by
  cases c <;> rfl

@[simp] theorem faultOf_left (c : FaultCause) (s : State) : (faultOf c s).left = s := by
  cases c <;> rfl

end Sys2Proof.Machine
end

