-- ==== Sys2Proof/Laws/Ops.lean ====
section
/-! SUPPORT. One lemma per shared operation that says everything it can do; provers cite these instead of
unfolding the operation. -/

namespace Sys2Proof.Machine

/-! ### Memory primitives -/

theorem memRead_admitted {s : State} {pa : Nat} (h : memAdmits s.cfg pa 2 = true) :
    memRead s pa = .ok (loadWord s.cfg s.mem pa) := if_pos h

theorem memRead_refused {s : State} {pa : Nat} (h : memAdmits s.cfg pa 2 = false) :
    memRead s pa = .error (.memRead pa 2) := by
  unfold memRead
  rw [if_neg (by rw [h]; exact Bool.false_ne_true)]

theorem memWrite_admitted {s : State} {pa : Nat} (v : Word) (h : memAdmits s.cfg pa 2 = true) :
    memWrite s pa v = .ok { s with mem := storeWord s.cfg s.mem pa v } := if_pos h

theorem memWrite_refused {s : State} {pa : Nat} (v : Word) (h : memAdmits s.cfg pa 2 = false) :
    memWrite s pa v = .error (.memWrite pa 2) := by
  unfold memWrite
  rw [if_neg (by rw [h]; exact Bool.false_ne_true)]

/-! ### pushWord -/

/-- A push whose stack write is admitted: SP moves and the word is stored. -/
theorem pushWord_admitted (v : Word) {s : State} (h : s.StackAdmitted) :
    pushWord v s =
      .next { decrementSp s with mem := storeWord s.cfg s.mem (pushAddr s) v } := by
  unfold pushWord
  rw [memWrite_admitted (s := decrementSp s) v h]
  rfl

/-- A push whose stack write is not admitted: the fault, with SP moved (R114). -/
theorem pushWord_refused (v : Word) {s : State} (h : memAdmits s.cfg (pushAddr s) 2 = false) :
    pushWord v s = raise (.memWrite (pushAddr s) 2) (decrementSp s) := by
  unfold pushWord
  rw [memWrite_refused (s := decrementSp s) v h]

/-- The two outcomes of a push. -/
theorem pushWord_next {v : Word} {s t : State} (h : pushWord v s = .next t) :
    s.StackAdmitted ∧
      t = { decrementSp s with mem := storeWord s.cfg s.mem (pushAddr s) v } := by
  rcases hb : memAdmits s.cfg (pushAddr s) 2 with _ | _
  · rw [pushWord_refused v hb] at h
    cases h
  · rw [pushWord_admitted v hb] at h
    exact ⟨hb, (Host.Outcome.next.inj h).symm⟩

theorem pushWord_fault {v : Word} {s : State} {f : Fault} (h : pushWord v s = .fault f) :
    memAdmits s.cfg (pushAddr s) 2 = false ∧
      f = faultOf (.memWrite (pushAddr s) 2)
        { decrementSp s with fault := some (.memWrite (pushAddr s) 2) } := by
  rcases hb : memAdmits s.cfg (pushAddr s) 2 with _ | _
  · rw [pushWord_refused v hb] at h
    exact ⟨rfl, (Host.Outcome.fault.inj h).symm⟩
  · rw [pushWord_admitted v hb] at h
    cases h

theorem pushWord_not_refused (v : Word) (s : State) (r : Refusal) : pushWord v s ≠ .refused r := by
  rcases hb : memAdmits s.cfg (pushAddr s) 2 with _ | _
  · rw [pushWord_refused v hb]
    exact fun h => by cases h
  · rw [pushWord_admitted v hb]
    exact fun h => by cases h

/-! ### retire -/

theorem retire_next {len : Nat} {o : Host.Outcome State Fault Refusal} {t : State}
    (h : retire len o = .next t) :
    ∃ u, o = .next u ∧ t = { u with ip := u.ip + BitVec.ofNat 16 len } := by
  cases o with
  | next u => exact ⟨u, rfl, (Host.Outcome.next.inj h).symm⟩
  | fault f => cases h
  | refused r => cases h

theorem retire_fault {len : Nat} {o : Host.Outcome State Fault Refusal} {f : Fault}
    (h : retire len o = .fault f) : o = .fault f := by
  cases o with
  | next u => cases h
  | fault g => exact h
  | refused r => cases h

theorem retire_refused {len : Nat} {o : Host.Outcome State Fault Refusal} {r : Refusal}
    (h : retire len o = .refused r) : o = .refused r := by
  cases o with
  | next u => cases h
  | fault g => cases h
  | refused r' => exact h

end Sys2Proof.Machine
end

