-- ==== Sys2Proof/Laws/PerInstr.lean ====
section
/-! SUPPORT. Facts about every instruction, one lemma per constructor. -/

namespace Sys2Proof.Laws.EncodedLength

/-- The bytes of an instruction are as many as the length table gives it (30_encoding.md R75), and at most
the longest. -/
def Statement (i : Instr) : Prop := (encode i).length = instrLength i ∧ instrLength i ≤ maxInstrLength

theorem pushAX (pre : Option SegReg) : Statement (.pushAX pre) := by
  cases pre <;> exact ⟨rfl, Nat.le_of_ble_eq_true rfl⟩

theorem pushCX (pre : Option SegReg) : Statement (.pushCX pre) := by
  cases pre <;> exact ⟨rfl, Nat.le_of_ble_eq_true rfl⟩

theorem pushDX (pre : Option SegReg) : Statement (.pushDX pre) := by
  cases pre <;> exact ⟨rfl, Nat.le_of_ble_eq_true rfl⟩

theorem pushBX (pre : Option SegReg) : Statement (.pushBX pre) := by
  cases pre <;> exact ⟨rfl, Nat.le_of_ble_eq_true rfl⟩

theorem pushSP (pre : Option SegReg) : Statement (.pushSP pre) := by
  cases pre <;> exact ⟨rfl, Nat.le_of_ble_eq_true rfl⟩

theorem pushBP (pre : Option SegReg) : Statement (.pushBP pre) := by
  cases pre <;> exact ⟨rfl, Nat.le_of_ble_eq_true rfl⟩

theorem pushSI (pre : Option SegReg) : Statement (.pushSI pre) := by
  cases pre <;> exact ⟨rfl, Nat.le_of_ble_eq_true rfl⟩

theorem pushDI (pre : Option SegReg) : Statement (.pushDI pre) := by
  cases pre <;> exact ⟨rfl, Nat.le_of_ble_eq_true rfl⟩

theorem pushES (pre : Option SegReg) : Statement (.pushES pre) := by
  cases pre <;> exact ⟨rfl, Nat.le_of_ble_eq_true rfl⟩

theorem pushCS (pre : Option SegReg) : Statement (.pushCS pre) := by
  cases pre <;> exact ⟨rfl, Nat.le_of_ble_eq_true rfl⟩

theorem pushSS (pre : Option SegReg) : Statement (.pushSS pre) := by
  cases pre <;> exact ⟨rfl, Nat.le_of_ble_eq_true rfl⟩

theorem pushDS (pre : Option SegReg) : Statement (.pushDS pre) := by
  cases pre <;> exact ⟨rfl, Nat.le_of_ble_eq_true rfl⟩

theorem pushf (pre : Option SegReg) : Statement (.pushf pre) := by
  cases pre <;> exact ⟨rfl, Nat.le_of_ble_eq_true rfl⟩

theorem pushRmRegister (pre : Option SegReg) (reg rm : BitVec 3) :
    Statement (.pushRmRegister pre reg rm) := by
  cases pre <;> exact ⟨rfl, Nat.le_of_ble_eq_true rfl⟩

theorem pushRmDisp16 (pre : Option SegReg) (reg : BitVec 3) (disp : Word) :
    Statement (.pushRmDisp16 pre reg disp) := by
  cases pre <;> exact ⟨rfl, Nat.le_of_ble_eq_true rfl⟩

theorem pushRmBaseIndex (pre : Option SegReg) (reg rm : BitVec 3) :
    Statement (.pushRmBaseIndex pre reg rm) := by
  cases pre <;> exact ⟨rfl, Nat.le_of_ble_eq_true rfl⟩

theorem pushRmBaseIndexDisp8 (pre : Option SegReg) (reg rm : BitVec 3) (disp : Byte) :
    Statement (.pushRmBaseIndexDisp8 pre reg rm disp) := by
  cases pre <;> exact ⟨rfl, Nat.le_of_ble_eq_true rfl⟩

theorem pushRmBaseIndexDisp16 (pre : Option SegReg) (reg rm : BitVec 3) (disp : Word) :
    Statement (.pushRmBaseIndexDisp16 pre reg rm disp) := by
  cases pre <;> exact ⟨rfl, Nat.le_of_ble_eq_true rfl⟩

end Sys2Proof.Laws.EncodedLength
end

