-- ==== Sys2Proof/Laws/Push.lean ====
section
/-! SUPPORT. The block: what one invocation can do, and that every arm of `exec` is one invocation. -/

namespace Sys2Proof.Machine

/-- The eighteen arms are one invocation of the block each, with what the decoder port hands it. -/
theorem exec_eq_invoke (i : Instr) (s : State) : exec i s = invoke resolve8086 (invocationOf i) s := by
  cases i <;> rfl

theorem invoke_ok {R : Resolver} {inv : Invocation} {s : State} {v : Word}
    (h : source R inv s = .ok v) : invoke R inv s = pushWord v s := by
  unfold invoke
  rw [h]

theorem invoke_error {R : Resolver} {inv : Invocation} {s : State} {c : FaultCause}
    (h : source R inv s = .error c) : invoke R inv s = raise c s := by
  unfold invoke
  rw [h]

/-- An invocation that ends in `Done`: its source resolved, its stack write was admitted, and the state is
the push's. -/
theorem invoke_next {R : Resolver} {inv : Invocation} {s t : State} (h : invoke R inv s = .next t) :
    ∃ v, source R inv s = .ok v ∧ s.StackAdmitted ∧
      t = { decrementSp s with mem := storeWord s.cfg s.mem (pushAddr s) v } := by
  rcases hs : source R inv s with c | v
  · rw [invoke_error hs] at h
    cases h
  · rw [invoke_ok hs] at h
    exact ⟨v, rfl, pushWord_next h⟩

/-- An invocation that faults: before any change, in its source, or in the stack write with SP moved. -/
theorem invoke_fault {R : Resolver} {inv : Invocation} {s : State} {f : Fault}
    (h : invoke R inv s = .fault f) :
    (∃ c, source R inv s = .error c ∧ f = faultOf c { s with fault := some c }) ∨
    (∃ v, source R inv s = .ok v ∧ memAdmits s.cfg (pushAddr s) 2 = false ∧
      f = faultOf (.memWrite (pushAddr s) 2)
        { decrementSp s with fault := some (.memWrite (pushAddr s) 2) }) := by
  rcases hs : source R inv s with c | v
  · rw [invoke_error hs] at h
    exact .inl ⟨c, rfl, (Host.Outcome.fault.inj h).symm⟩
  · rw [invoke_ok hs] at h
    exact .inr ⟨v, rfl, pushWord_fault h⟩

/-- The block itself refuses nothing: refusals are the decoder's and the launch's (R77, R117). -/
theorem invoke_not_refused (R : Resolver) (inv : Invocation) (s : State) (r : Refusal) :
    invoke R inv s ≠ .refused r := by
  rcases hs : source R inv s with c | v
  · rw [invoke_error hs]
    exact fun h => by cases h
  · rw [invoke_ok hs]
    exact pushWord_not_refused v s r

/-! ### The operand read -/

theorem source_pushRm {R : Resolver} {op : Byte} {m : ModRm} {d : Disp} {pre : Option SegReg} {s : State}
    (h : m.reg = 6) : source R (.pushRm op m d pre) s = operandRead s (R m d pre s.regs) := by
  simp only [source, if_pos h]

theorem source_pushRm_violation {R : Resolver} {op : Byte} {m : ModRm} {d : Disp}
    {pre : Option SegReg} {s : State} (h : m.reg ≠ 6) :
    source R (.pushRm op m d pre) s = .error (.contractViolation op m.reg) := by
  simp only [source, if_neg h]

theorem operandRead_reg (s : State) (g : Gpr) :
    operandRead s (.reg g) = .ok (readReg s.regs (.gpr g)) := rfl

theorem operandRead_mem (s : State) (seg : SegReg) (off : Word) :
    operandRead s (.mem seg off) = memRead s (operandPa s seg off) := rfl

theorem resolve8086_register {m : ModRm} (h : m.mod = 0b11) (d : Disp) (pre : Option SegReg)
    (r : RegFile) : resolve8086 m d pre r = .reg (gprOfIndex m.rm) := if_pos h

theorem resolve8086_memory {m : ModRm} (h : m.mod ≠ 0b11) (d : Disp) (pre : Option SegReg)
    (r : RegFile) : resolve8086 m d pre r = .mem (operandSeg m pre) (baseTerms m r + dispValue d) :=
  if_neg h

end Sys2Proof.Machine
end

