-- ==== Sys2Proof/Laws/Step.lean ====
section
/-! SUPPORT. What one step can do. -/

namespace Sys2Proof.Machine

/-- A state that runs: the step is the decoded instruction's, or the refusal of its bytes. -/
theorem step_running {s : State} (h : s.Running) :
    step s =
      match decode (fetched s) with
      | .ok (i, _) => retire (instrLength i) (exec i s)
      | .error e => refuse (refusalReason s e) s := by
  simp only [step, h.1, h.2] <;> rfl

theorem step_faulted {s : State} {c : FaultCause} (h : s.fault = some c) :
    step s = .fault (faultOf c s) := by
  unfold step
  rw [h]

theorem step_refusedMark {s : State} {r : RefusalReason} (hf : s.fault = none)
    (h : s.refused = some r) : step s = .refused (refusalOf r s) := by
  unfold step
  rw [hf, h]

/-- Everything a step that answers a next state does: the state ran, the bytes at CS:IP decoded, the
instruction completed, and IP moved past it. -/
theorem step_next {s t : State} (h : step s = .next t) :
    s.Running ∧ ∃ i rest u, decode (fetched s) = .ok (i, rest) ∧ exec i s = .next u ∧
      t = { u with ip := u.ip + BitVec.ofNat 16 (instrLength i) } := by
  rcases Option.eq_none_or_eq_some s.fault with hf | ⟨c, hf⟩
  · rcases Option.eq_none_or_eq_some s.refused with hr | ⟨r, hr⟩
    · rw [step_running ⟨hf, hr⟩] at h
      rcases hd : decode (fetched s) with e | ⟨i, rest⟩
      · rw [hd] at h
        cases h
      · rw [hd] at h
        obtain ⟨u, hu, ht⟩ := retire_next h
        exact ⟨⟨hf, hr⟩, i, rest, u, rfl, hu, ht⟩
    · rw [step_refusedMark hf hr] at h
      cases h
  · rw [step_faulted hf] at h
    cases h

/-- Everything a step that faults does: the fault recorded before, or the instruction's own. -/
theorem step_fault {s : State} {f : Fault} (h : step s = .fault f) :
    (∃ c, s.fault = some c ∧ f = faultOf c s) ∨
    (s.Running ∧ ∃ i rest, decode (fetched s) = .ok (i, rest) ∧ exec i s = .fault f) := by
  rcases Option.eq_none_or_eq_some s.fault with hf | ⟨c, hf⟩
  · rcases Option.eq_none_or_eq_some s.refused with hr | ⟨r, hr⟩
    · rw [step_running ⟨hf, hr⟩] at h
      rcases hd : decode (fetched s) with e | ⟨i, rest⟩
      · rw [hd] at h
        cases h
      · rw [hd] at h
        exact .inr ⟨⟨hf, hr⟩, i, rest, rfl, retire_fault h⟩
    · rw [step_refusedMark hf hr] at h
      cases h
  · rw [step_faulted hf] at h
    exact .inl ⟨c, hf, (Host.Outcome.fault.inj h).symm⟩

/-- Everything a step that refuses does: the mark set before, or the decoder's refusal. -/
theorem step_refuses {s : State} {r : Refusal} (h : step s = .refused r) :
    (∃ q, s.fault = none ∧ s.refused = some q ∧ r = refusalOf q s) ∨
    (s.Running ∧ ∃ e, decode (fetched s) = .error e ∧
      r = refusalOf (refusalReason s e) { s with refused := some (refusalReason s e) }) := by
  rcases Option.eq_none_or_eq_some s.fault with hf | ⟨c, hf⟩
  · rcases Option.eq_none_or_eq_some s.refused with hr | ⟨q, hr⟩
    · rw [step_running ⟨hf, hr⟩] at h
      rcases hd : decode (fetched s) with e | ⟨i, rest⟩
      · rw [hd] at h
        exact .inr ⟨⟨hf, hr⟩, e, rfl, (Host.Outcome.refused.inj h).symm⟩
      · rw [hd] at h
        have := retire_refused h
        rw [exec_eq_invoke] at this
        exact absurd this (invoke_not_refused _ _ _ _)
    · rw [step_refusedMark hf hr] at h
      exact .inl ⟨q, hf, hr, (Host.Outcome.refused.inj h).symm⟩
  · rw [step_faulted hf] at h
    cases h

end Sys2Proof.Machine
end

