-- ==== Sys2Proof/Tests/Slice0.lean ====
section
/-! SUPPORT. Tests of the model, each expected result taken from spec/95_test_vectors.md or read off the
encoding tables of spec/30_encoding.md, and the witnesses that the statements' hypotheses can be met. -/

namespace Sys2Proof.Tests

open Sys2Proof Sys2Proof.Machine Sys2Proof.Statements

/-! ### Helpers -/

/-- The registers of the vectors V-R1 to V-R8 and V-S1 to V-S4. -/
def vecRegs : RegFile where
  ax := 0x1234
  cx := 0x2345
  dx := 0x3456
  bx := 0x4567
  sp := 0x0100
  bp := 0x5678
  si := 0x6789
  di := 0x789A
  es := 0x1111
  cs := 0x2222
  ss := 0x1000
  ds := 0x4444
  flags := 0xF002

/-- The registers of the vectors V-M4 to V-M19. -/
def memRegs : RegFile where
  ax := 0x1234
  cx := 0x2345
  dx := 0x3456
  bx := 0x0200
  sp := 0x0100
  bp := 0x0080
  si := 0x0010
  di := 0x0020
  es := 0x5000
  cs := 0x6000
  ss := 0x1000
  ds := 0x3000
  flags := 0xF002

/-- A state about to run `bytes`, with the registers `r` and the memory `m`. -/
def ready (r : RegFile) (m : Memory) (bytes : List Byte) : State :=
  let s : State :=
    { regs := r, ip := 0x0040, mem := m, cfg := Config.reference, fault := none, refused := none }
  placeCode s s.ip bytes

/-- Memory that holds one word, low byte first. -/
def wordAt (pa : Nat) (v : Word) : Memory := storeWord Config.reference [] pa v

/-- `s` with a memory subsystem that fails the two-byte accesses at the addresses of `pas`. -/
def refusing (pas : List Nat) (s : State) : State :=
  { s with cfg := { s.cfg with refuses := pas.map fun pa => ⟨pa, pa, 2⟩ } }

/-- SP, how far IP moved, and the word at `pa`, where the step answers a next state. -/
def seen (pa : Nat) (s : State) : Option (Word × Word × Word) :=
  match step s with
  | .next t => some (t.regs.sp, t.ip - s.ip, loadWord t.cfg t.mem pa)
  | .fault _ => none
  | .refused _ => none

/-- What the fault records, SP at the fault, and whether memory and IP are as before. -/
def faulted (s : State) : Option (FaultCause × Word × Bool) :=
  match step s with
  | .next _ => none
  | .fault f => some (f.cause, f.left.regs.sp, f.left.mem == s.mem && f.left.ip == s.ip)
  | .refused _ => none

/-- The refusal of a step, if it refuses. -/
def refusedAs (s : State) : Option Refusal :=
  match step s with
  | .next _ => none
  | .fault _ => none
  | .refused r => some r

/-- The next state of an outcome, if it has one. -/
def nextOf : Host.Outcome State Fault Refusal → Option State
  | .next t => some t
  | .fault _ => none
  | .refused _ => none

/-! ### WellFormed refuses what no encoding holds -/

theorem test_wellFormed_refuses_reg_0_register : (Instr.pushRmRegister none 0 0).wellFormed = false := by
  decide
theorem test_wellFormed_refuses_reg_7_disp16 : (Instr.pushRmDisp16 none 7 0x1234).wellFormed = false := by
  decide
theorem test_wellFormed_refuses_reg_5_base : (Instr.pushRmBaseIndex none 5 0).wellFormed = false := by decide
theorem test_wellFormed_refuses_rm_6_base : (Instr.pushRmBaseIndex none 6 6).wellFormed = false := by decide
theorem test_wellFormed_refuses_reg_2_disp8 :
    (Instr.pushRmBaseIndexDisp8 none 2 6 0).wellFormed = false := by decide
theorem test_wellFormed_refuses_reg_4_disp16 :
    (Instr.pushRmBaseIndexDisp16 none 4 6 0).wellFormed = false := by decide

/-! ### Decoding, by the words of R65, R66, R68, R69, R70, R72 -/

theorem test_decode_push_r :
    decode [0b01010000] = .ok (.pushAX none, []) ∧ decode [0b01010001] = .ok (.pushCX none, []) ∧
    decode [0b01010010] = .ok (.pushDX none, []) ∧ decode [0b01010011] = .ok (.pushBX none, []) ∧
    decode [0b01010100] = .ok (.pushSP none, []) ∧ decode [0b01010101] = .ok (.pushBP none, []) ∧
    decode [0b01010110] = .ok (.pushSI none, []) ∧ decode [0b01010111] = .ok (.pushDI none, []) := by
  decide

theorem test_decode_push_sr :
    decode [0b00000110] = .ok (.pushES none, []) ∧ decode [0b00001110] = .ok (.pushCS none, []) ∧
    decode [0b00010110] = .ok (.pushSS none, []) ∧ decode [0b00011110] = .ok (.pushDS none, []) := by
  decide

theorem test_decode_pushf : decode [0b10011100] = .ok (.pushf none, []) := by decide

theorem test_decode_push_rm :
    decode [0b11111111, 0b11110101] = .ok (.pushRmRegister none 6 5, []) ∧
    decode [0b11111111, 0b00110110, 0x34, 0x12] = .ok (.pushRmDisp16 none 6 0x1234, []) ∧
    decode [0b11111111, 0b00110011] = .ok (.pushRmBaseIndex none 6 3, []) ∧
    decode [0b11111111, 0b01110110, 0xFE] = .ok (.pushRmBaseIndexDisp8 none 6 6 0xFE, []) ∧
    decode [0b11111111, 0b10110111, 0x00, 0x01] = .ok (.pushRmBaseIndexDisp16 none 6 7 0x0100, []) := by
  decide

/-- V-M17 to V-M19 and V-X9: a segment override. -/
theorem test_decode_override :
    decode [0x26, 0xFF, 0x37] = .ok (.pushRmBaseIndex (some .es) 6 7, []) ∧
    decode [0x2E, 0xFF, 0x36, 0x00, 0x00] = .ok (.pushRmDisp16 (some .cs) 6 0, []) ∧
    decode [0x36, 0xFF, 0x37] = .ok (.pushRmBaseIndex (some .ss) 6 7, []) ∧
    decode [0x26, 0x50] = .ok (.pushAX (some .es), []) := by
  decide

/-- V-X2, V-X7, V-X8, V-X10, V-X11: what the decoder refuses. -/
theorem test_decode_refuses :
    decode [0xFF, 0xC0] = .error .notPushFamily ∧ decode [0xF0, 0x50] = .error .unsupportedPrefix ∧
    decode [0x26, 0x26, 0x50] = .error .unsupportedPrefix ∧
    decode [0x68, 0x34, 0x12] = .error .notPushFamily ∧ decode [0x0F] = .error .notPushFamily := by
  decide

/-- The table's rows, in the table's numbering. -/
theorem test_decodeTableWord_one_byte :
    ([0x50, 0x51, 0x52, 0x53, 0x54, 0x55, 0x56, 0x57].map (decodeTableWord 8) =
      ([.pushAX none, .pushCX none, .pushDX none, .pushBX none, .pushSP none, .pushBP none, .pushSI none,
        .pushDI none] : List Instr).map some) ∧
    ([0x06, 0x0E, 0x16, 0x1E, 0x9C].map (decodeTableWord 8) =
      ([.pushES none, .pushCS none, .pushSS none, .pushDS none, .pushf none] : List Instr).map some) := by
  decide

theorem test_decodeTableWord_push_rm :
    [0xFFF0, 0xFF36, 0xFF30, 0xFF70, 0xFFB0].map (decodeTableWord 16) =
      ([.pushRmRegister none 6 0, .pushRmDisp16 none 6 0, .pushRmBaseIndex none 6 0,
        .pushRmBaseIndexDisp8 none 6 0 0, .pushRmBaseIndexDisp16 none 6 0 0] : List Instr).map some := by
  decide

/-- The first step after reset runs the loaded instruction. -/
theorem test_reset_runs_push_AX :
    (nextOf (step (State.reset.withFetchWord 8 0x50))).map (fun t => (t.regs.sp, t.ip)) =
      some (0xFFFE, 1) := by
  decide

theorem test_reset_runs_push_disp16 :
    (nextOf (step (State.reset.withFetchWord 16 0xFF36))).map (fun t => (t.regs.sp, t.ip)) =
      some (0xFFFE, 4) := by
  decide

/-! ### The translator -/

/-- V-T1 to V-T10, PA_WIDTH = 20. -/
theorem test_phys :
    phys Config.reference 0x1000 0x00FE = 0x100FE ∧ phys Config.reference 0x2000 0xFFFE = 0x2FFFE ∧
    phys Config.reference 0x1234 0x5678 = 0x179B8 ∧ phys Config.reference 0xFFFF 0x000F = 0xFFFFF ∧
    phys Config.reference 0xFFFF 0x0010 = 0x00000 ∧ phys Config.reference 0xFFFF 0xFFFF = 0x0FFEF := by
  decide

/-- V-T6, V-T7 with PA_WIDTH = 21, and V-T11 with PA_WIDTH = 16. -/
theorem test_phys_other_widths :
    phys ⟨21, []⟩ 0xFFFF 0x0010 = 0x100000 ∧ phys ⟨21, []⟩ 0xFFFF 0xFFFF = 0x10FFEF ∧
    phys ⟨16, []⟩ 0x1000 0x00FE = 0x00FE := by
  decide

/-! ### push r -/

/-- V-R1. -/
theorem test_push_AX : seen 0x100FE (ready vecRegs [] [0x50]) = some (0x00FE, 1, 0x1234) := by decide
/-- V-R2. -/
theorem test_push_CX : seen 0x100FE (ready vecRegs [] [0x51]) = some (0x00FE, 1, 0x2345) := by decide
/-- V-R3. -/
theorem test_push_DX : seen 0x100FE (ready vecRegs [] [0x52]) = some (0x00FE, 1, 0x3456) := by decide
/-- V-R4. -/
theorem test_push_BX : seen 0x100FE (ready vecRegs [] [0x53]) = some (0x00FE, 1, 0x4567) := by decide
/-- V-R5: the SP of before the push. -/
theorem test_push_SP : seen 0x100FE (ready vecRegs [] [0x54]) = some (0x00FE, 1, 0x0100) := by decide
/-- V-R6. -/
theorem test_push_BP : seen 0x100FE (ready vecRegs [] [0x55]) = some (0x00FE, 1, 0x5678) := by decide
/-- V-R7. -/
theorem test_push_SI : seen 0x100FE (ready vecRegs [] [0x56]) = some (0x00FE, 1, 0x6789) := by decide
/-- V-R8. -/
theorem test_push_DI : seen 0x100FE (ready vecRegs [] [0x57]) = some (0x00FE, 1, 0x789A) := by decide
/-- V-R14: SP = 1 wraps to 0xFFFF, and the high byte lies past the segment's window. -/
theorem test_push_SP_wraps :
    seen 0x2FFFF (ready { vecRegs with ss := 0x2000, sp := 1 } [] [0x54]) = some (0xFFFF, 1, 0x0001) := by
  decide
/-- V-R16: the word's high byte wraps to physical 0. -/
theorem test_push_AX_physical_wrap :
    seen 0xFFFFF (ready { vecRegs with ss := 0xFFFF, sp := 0x0011 } [] [0x50]) =
      some (0x000F, 1, 0x1234) ∧
    (nextOf (step (ready { vecRegs with ss := 0xFFFF, sp := 0x0011 } [] [0x50]))).map
      (fun t => (Memory.read t.mem 0xFFFFF, Memory.read t.mem 0x00000)) = some (0x34, 0x12) := by
  decide
/-- V-X9: an override before `push AX` counts one byte and does nothing else. -/
theorem test_push_AX_override :
    seen 0x100FE (ready vecRegs [] [0x26, 0x50]) = some (0x00FE, 2, 0x1234) := by decide

/-! ### push sr, pushf -/

/-- V-S1. -/
theorem test_push_ES : seen 0x100FE (ready vecRegs [] [0x06]) = some (0x00FE, 1, 0x1111) := by decide
/-- V-S2. -/
theorem test_push_CS : seen 0x100FE (ready vecRegs [] [0x0E]) = some (0x00FE, 1, 0x2222) := by decide
/-- V-S3. -/
theorem test_push_SS : seen 0x100FE (ready vecRegs [] [0x16]) = some (0x00FE, 1, 0x1000) := by decide
/-- V-S4. -/
theorem test_push_DS : seen 0x100FE (ready vecRegs [] [0x1E]) = some (0x00FE, 1, 0x4444) := by decide
/-- V-S5. -/
theorem test_push_SS_wraps :
    seen 0x2FFFE (ready { vecRegs with ss := 0x2000, sp := 0 } [] [0x16]) = some (0xFFFE, 1, 0x2000) := by
  decide
/-- V-F1, the source's S7. -/
theorem test_pushf_wraps :
    seen 0x2FFFE (ready { vecRegs with ss := 0x2000, sp := 0, flags := 0x0202 } [] [0x9C]) =
      some (0xFFFE, 1, 0x0202) := by
  decide
/-- V-F2: all sixteen bits. -/
theorem test_pushf : seen 0x100FE (ready vecRegs [] [0x9C]) = some (0x00FE, 1, 0xF002) := by decide

/-! ### push r/m -/

/-- V-M2. -/
theorem test_push_rm_SP : seen 0x100FE (ready vecRegs [] [0xFF, 0xF4]) = some (0x00FE, 2, 0x0100) := by
  decide
/-- V-M3. -/
theorem test_push_rm_DI : seen 0x100FE (ready vecRegs [] [0xFF, 0xF7]) = some (0x00FE, 2, 0x789A) := by
  decide
/-- V-M10. -/
theorem test_push_disp16 :
    seen 0x100FE (ready memRegs (wordAt 0x31234 0xC0DE) [0xFF, 0x36, 0x34, 0x12]) =
      some (0x00FE, 4, 0xC0DE) := by
  decide
/-- V-M18. -/
theorem test_push_disp16_cs :
    seen 0x100FE (ready memRegs (wordAt 0x60000 0xC0DE) [0x2E, 0xFF, 0x36, 0x00, 0x00]) =
      some (0x00FE, 5, 0xC0DE) := by
  decide
/-- V-M7. -/
theorem test_push_bp_di :
    seen 0x100FE (ready memRegs (wordAt 0x100A0 0xC0DE) [0xFF, 0x33]) = some (0x00FE, 2, 0xC0DE) := by
  decide
/-- V-M20: the offset wraps modulo 2^16. -/
theorem test_push_bx_si_wraps :
    seen 0x100FE (ready { memRegs with bx := 0xFFFF, si := 0x0002 } (wordAt 0x30001 0x1357) [0xFF, 0x30]) =
      some (0x00FE, 2, 0x1357) := by
  decide
/-- V-M12: a sign-extended displacement, in SS. -/
theorem test_push_bp_disp8 :
    seen 0x100FE (ready memRegs (wordAt 0x1007E 0xC0DE) [0xFF, 0x76, 0xFE]) = some (0x00FE, 3, 0xC0DE) := by
  decide
/-- V-M13: an odd address, in DS. -/
theorem test_push_bx_disp8 :
    seen 0x100FE (ready memRegs (wordAt 0x3027F 0xC0DE) [0xFF, 0x77, 0x7F]) = some (0x00FE, 3, 0xC0DE) := by
  decide
/-- V-M16. -/
theorem test_push_bp_disp16 :
    seen 0x100FE (ready memRegs (wordAt 0x1FF80 0xC0DE) [0xFF, 0xB6, 0x00, 0xFF]) =
      some (0x00FE, 4, 0xC0DE) := by
  decide
/-- V-M15. -/
theorem test_push_bx_disp16 :
    seen 0x100FE (ready memRegs (wordAt 0x30300 0xC0DE) [0xFF, 0xB7, 0x00, 0x01]) =
      some (0x00FE, 4, 0xC0DE) := by
  decide

/-! ### Faults and refusals -/

/-- V-X1: the handler reached with register field 0. -/
theorem test_contract_violation :
    exec (.pushRmRegister none 0 0) (ready vecRegs [] []) =
      .fault (.contractViolation 0xFF 0
        { ready vecRegs [] [] with fault := some (.contractViolation 0xFF 0) }) := rfl

/-- V-X3. -/
theorem test_read_fault :
    faulted (refusing [0x31234] (ready memRegs [] [0xFF, 0x36, 0x34, 0x12])) =
      some (.memRead 0x31234 2, 0x0100, true) := by
  decide
/-- V-X5: the read fault comes first. -/
theorem test_read_fault_first :
    faulted (refusing [0x31234, 0x100FE] (ready memRegs [] [0xFF, 0x36, 0x34, 0x12])) =
      some (.memRead 0x31234 2, 0x0100, true) := by
  decide
/-- V-X4: SP is not restored. -/
theorem test_write_fault :
    faulted (refusing [0x100FE] (ready vecRegs [] [0x50])) = some (.memWrite 0x100FE 2, 0x00FE, true) := by
  decide
/-- V-X2 and V-X7, as a step refuses them. -/
theorem test_step_refuses :
    refusedAs (ready vecRegs [] [0xFF, 0xC0]) =
      some (.notPushFamily { ready vecRegs [] [0xFF, 0xC0] with refused := some .notPushFamily }) ∧
    refusedAs (ready vecRegs [] [0xF0, 0x50]) =
      some (.unsupportedPrefix
        { ready vecRegs [] [0xF0, 0x50] with refused := some .unsupportedPrefix }) := by
  decide

/-- The second step of P4: a push into the next instruction changes it. -/
theorem test_push_into_code :
    (nextOf (step (ready { vecRegs with cs := 0x1000, sp := 0x0043, ax := 0x0653 } []
      [0x50, 0x51, 0x52]))).map (fun t => (fetched t).take 2) = some [0x53, 0x06] := by
  decide

/-! ### Witnesses of the statements' hypotheses -/

/-- The state most witnesses use: vector registers, one listed word, the reference parameters. -/
def wit : State := ready memRegs (wordAt 0x31234 0xC0DE) [0x50]

/-- A state whose stack write is refused. -/
def witNoStack : State := refusing [0x100FE] wit

theorem witness_inv_running_stack : wit.Inv ∧ wit.Running ∧ StackWritable wit ∧ wit.StackAdmitted := by
  decide

theorem witness_stack_refused : witNoStack.Inv ∧ ¬ StackWritable witNoStack := by decide

theorem witness_DecodeEncodeRoundTrip :
    (Instr.pushRmBaseIndexDisp16 (some .ds) 6 7 0xFFFF).wellFormed = true ∧
    (Instr.pushRmBaseIndex none 6 7).wellFormed = true := by
  decide

theorem witness_DecodedBytesAreTheEncoding :
    decode [0x3E, 0xFF, 0xB6, 0xFF, 0xFF, 0x50] = .ok (.pushRmBaseIndexDisp16 (some .ds) 6 6 0xFFFF, [0x50]) := by
  decide

theorem witness_DispatchTable :
    isPrefixByte 0x58 = false ∧ dispatch 0x58 ((0x00 : Byte).extractLsb' 3 3) = none ∧
    isPrefixByte 0xFF = false ∧ dispatch 0xFF ((0xF8 : Byte).extractLsb' 3 3) = none := by
  decide

theorem witness_RefusedEncodings :
    (¬ (0x50 ≤ (0x58 : Byte).toNat ∧ (0x58 : Byte).toNat ≤ 0x57) ∧
      (0x58 : Byte) ∉ ([0x06, 0x0E, 0x16, 0x1E, 0x9C, 0xFF] : List Byte) ∧
      (0x58 : Byte) ∉ ([0x26, 0x2E, 0x36, 0x3E, 0xF0, 0xF2, 0xF3] : List Byte)) ∧
    (0xF8 : Byte).extractLsb' 3 3 ≠ 6#3 ∧ (0xF3 : Byte) ∈ ([0xF0, 0xF2, 0xF3] : List Byte) ∧
    (some SegReg.es ≠ none ∧ (0x3E : Byte) ∈ ([0x26, 0x2E, 0x36, 0x3E] : List Byte)) := by
  decide

theorem witness_OverrideAcceptedBeforeAnyPush :
    (Instr.pushRmDisp16 none 6 0).wellFormed = true ∧ preOf (.pushRmDisp16 none 6 0) = none := by decide

theorem witness_TranslatorRange :
    21 ≤ (⟨21, []⟩ : Config).paWidth ∧ Config.reference.paWidth = 20 ∧
    0x100000 ≤ (0xFFFF#16).toNat * 16 + (0x0010#16).toNat ∧ (⟨19, []⟩ : Config).paWidth < 20 := by
  decide

theorem witness_TranslatorPairsCoincide :
    (0xFFFE#16).toNat < 0xFFFF ∧ (0xFFEF#16).toNat + 16 < 0x10000 := by decide

theorem witness_WordWriteIsLittleEndian :
    wit.Inv ∧ 0xFFFFF < 2 ^ wit.cfg.paWidth ∧ memAdmits wit.cfg 0xFFFFF 2 = true ∧
    witNoStack.Inv ∧ 0x100FE < 2 ^ witNoStack.cfg.paWidth ∧ memAdmits witNoStack.cfg 0x100FE 2 = false := by
  decide

theorem witness_WordReadIsLittleEndian :
    memAdmits wit.cfg 0xFFFFF 2 = true ∧ memAdmits wit.cfg 0x100000 2 = false := by decide

theorem witness_WordReadSeesWordWritten :
    wit.Inv ∧ memWrite wit 0xFFFFF 0xBEEF =
      .ok { wit with mem := storeWord wit.cfg wit.mem 0xFFFFF 0xBEEF } ∧
    memRead { wit with mem := storeWord wit.cfg wit.mem 0xFFFFF 0xBEEF } (nextPa wit.cfg 0xFFFFF) =
      .ok 0x00BE := by
  decide

theorem witness_CanonicalMemoriesReadAlikeAreEqual :
    Memory.wf (wordAt 0x100FE 0x0034) ∧ Memory.wf [(0x100FE, 0x34)] ∧
    wordAt 0x100FE 0x0034 = [(0x100FE, 0x34)] := by
  decide

/-- For `PushGprRule`, `PushSegRule`, `PushFlagsRule`, `PushSpPushesOldSp`, `TwoEncodingsOfOnePush`,
`PushRmRegisterRule`: the first and last row of each list, with the stack write admitted and refused. -/
theorem witness_push_rows :
    (gprRows.length = 8 ∧ segRows.length = 4) ∧ (wit.Inv ∧ StackWritable wit) ∧
    (witNoStack.Inv ∧ ¬ StackWritable witNoStack) := by
  decide

/-- The operand address of a memory form: V-M10 for the direct form, V-M16 for `mod = 10`. -/
theorem witness_memForms :
    ((memForms none 6 0 0x1234).map fun f => f.pa wit).head? = some 0x31234 ∧
    ((memForms none 6 0 0xFF00).map fun f => f.pa wit).getLast? = some 0x1FF80 := by
  decide

/-- For `PushRmMemoryRule`, `PushReadsAtMostItsOperandWord`: a well-formed form of each kind whose operand is
admitted, with the stack write admitted and refused. -/
theorem witness_PushRmMemoryRule :
    (∀ f ∈ memForms none 7 0xFE 0x1234, f.instr.wellFormed = true ∧ memAdmits wit.cfg (f.pa wit) 2 = true ∧
      memAdmits witNoStack.cfg (f.pa witNoStack) 2 = true) ∧
    wit.Inv ∧ StackWritable wit ∧ witNoStack.Inv ∧ ¬ StackWritable witNoStack := by
  decide

theorem witness_OffsetAndSegmentTable : (7#3) ≠ 6 ∧ (0#3) ≠ 6 := by decide

/-- A next state for the statements about one: `push AX` from `wit` completes. -/
theorem witness_exec_next : (nextOf (exec (.pushAX none) wit)).isSome = true := by decide

theorem witness_OverrideMovesOnlyTheMemoryOperand :
    (⟨0b10, 6, 7⟩ : ModRm).mod ≠ 0b11 ∧ isMemoryForm (.pushRmRegister none 6 7) = false ∧ wit.Inv ∧
    (nextOf (exec (withPre (some .es) (.pushRmBaseIndex none 6 7)) wit)).isSome = true := by
  decide

/-- The operand at the slot (V-M21), one byte above (V-M22), and one byte below. -/
theorem witness_OverlappingOperandReadsOldBytes :
    let s : State := { wit with regs := { memRegs with bp := 0x0100 } }
    (s.Inv ∧ StackWritable s) ∧
    (∀ f ∈ memForms none 6 0xFE 0xFFFE, f.instr.wellFormed = true → memAdmits s.cfg (f.pa s) 2 = true) ∧
    ((memForms none 6 0xFE 0).map fun f => f.pa s)[2]? = some (stackPa s) ∧
    ((memForms none 6 0xFF 0).map fun f => f.pa s)[2]? = some (nextPa s.cfg (stackPa s)) ∧
    ((memForms none 6 0xFD 0).map fun f => nextPa s.cfg (f.pa s))[2]? = some (stackPa s) := by
  decide

theorem witness_MemoryOperandIgnoresSp : isMemoryForm (.pushRmBaseIndex none 6 2) = true := by decide

/-- A resolver that is not the reference one and is lawful: every memory operand in ES, at offset 0. -/
theorem witness_AnyLawfulResolver :
    Resolver.Lawful (fun m _ _ _ => if m.mod = 0b11 then .reg (gprOfIndex m.rm) else .mem .es 0) ∧
    ((⟨0b11, 6, 4⟩ : ModRm).reg = 6 ∧ (⟨0b11, 6, 4⟩ : ModRm).mod = 0b11) ∧
    ((⟨0b00, 6, 4⟩ : ModRm).reg = 6 ∧ (⟨0b00, 6, 4⟩ : ModRm).mod ≠ 0b11) ∧
    (wit.Inv ∧ StackWritable wit) ∧
    memAdmits wit.cfg (phys wit.cfg (segValue wit.regs .es) 0) 2 = true ∧
    memAdmits (refusing [0x50000] wit).cfg (phys wit.cfg (segValue wit.regs .es) 0) 2 = false ∧
    (refusing [0x50000] wit).Inv ∧ StackWritable (refusing [0x50000] wit) := by
  refine ⟨fun m _ _ _ => ⟨fun h => if_pos h, fun h => ⟨.es, 0, if_neg h⟩⟩, ?_⟩
  decide

theorem witness_EveryPushPostcondition :
    wit.Inv ∧ (nextOf (exec (.pushRmDisp16 none 6 0x1234) wit)).isSome = true := by decide

theorem witness_HandlersReadOnlyTheirField :
    (0x50 : Byte).toNat % 8 = (0xF8 : Byte).toNat % 8 ∧
    (0x1E : Byte).toNat / 8 % 4 = (0xF8 : Byte).toNat / 8 % 4 := by
  decide

theorem witness_SpWrapIsNoFault :
    let s0 : State := { wit with regs := { memRegs with sp := 0 } }
    let s1 : State := { wit with regs := { memRegs with sp := 1 } }
    (s0.Inv ∧ source resolve8086 (invocationOf (.pushSP none)) s0 = .ok 0 ∧ s0.regs.sp = 0 ∧
      memAdmits s0.cfg (phys s0.cfg s0.regs.ss 0xFFFE) 2 = true) ∧
    (s1.Inv ∧ source resolve8086 (invocationOf (.pushSP none)) s1 = .ok 1 ∧ s1.regs.sp = 1 ∧
      memAdmits s1.cfg (phys s1.cfg s1.regs.ss 0xFFFF) 2 = true) := by
  decide

theorem witness_FlagsAreOpaque :
    (∀ pre, Instr.pushAX none ≠ .pushf pre) ∧ (nextOf (exec (.pushAX none) wit)).isSome = true ∧
    (wit.Inv ∧ StackWritable wit) := by
  refine ⟨fun _ h => (by cases h), ?_⟩
  decide

theorem witness_PushReadsAtMostItsOperandWord :
    (wit.Inv ∧ isMemoryForm (.pushAX none) = false ∧ (nextOf (exec (.pushAX none) wit)).isSome = true) ∧
    (∀ f ∈ memForms none 7 0 0x1234, f.instr.wellFormed = true ∧
      (nextOf (exec f.instr wit)).isSome = true) ∧
    loadWord wit.cfg (wordAt 0x31234 0xC0DE) 0x31234 = loadWord wit.cfg wit.mem 0x31234 := by
  decide

theorem witness_ContractViolationStopsFirst :
    (0#3) ≠ 6 ∧ (7#3) ≠ 6 ∧ exec (.pushRmBaseIndex none 7 6) wit =
      .fault (.contractViolation 0xFF 7 { wit with fault := some (.contractViolation 0xFF 7) }) := by
  refine ⟨by decide, by decide, rfl⟩

theorem witness_ReadFaultChangesNothing :
    let s := refusing [0x31234] wit
    (∀ f ∈ (memForms none 7 0 0x1234).take 1, f.instr.wellFormed = true ∧
      memAdmits s.cfg (f.pa s) 2 = false) ∧
    (match exec (.pushRmDisp16 none 6 0x1234) s with
      | .fault f => f.cause == .memRead 0x31234 2
      | .next _ => false
      | .refused _ => false) = true := by
  decide

theorem witness_WriteFaultLeavesSpMoved :
    source resolve8086 (invocationOf (.pushAX none)) witNoStack = .ok 0x1234 ∧ ¬ StackWritable witNoStack ∧
    (match exec (.pushAX none) witNoStack with
      | .fault f => f.cause == .memWrite 0x100FE 2
      | .next _ => false
      | .refused _ => false) = true := by
  decide

theorem witness_FaultsComeInStepOrder :
    source resolve8086 (invocationOf (.pushRmDisp16 none 6 0x1234)) (refusing [0x31234] wit) =
      .error (.memRead 0x31234 2) ∧ (⟨0, 5, 0⟩ : ModRm).reg ≠ 6 := by
  decide

/-- A running state whose bytes decode and complete, and one whose bytes decode and fault. -/
theorem witness_StepRunsTheDecodedInstruction :
    (wit.Running ∧ decode (fetched wit) = .ok (.pushAX none, [0, 0, 0, 0]) ∧
      (nextOf (exec (.pushAX none) wit)).isSome = true) ∧
    (witNoStack.Running ∧ decode (fetched witNoStack) = .ok (.pushAX none, [0, 0, 0, 0]) ∧
      (faulted witNoStack).isSome = true) := by
  decide

/-- A step that completes at the last offset: IP wraps. -/
theorem witness_StepAdvancesIpByTheLengthTable :
    let s : State := { wit with ip := 0xFFFF, mem := wordAt 0x6FFFF 0x0050 }
    (nextOf (step s)).map (fun t => t.ip) = some 0 := by
  decide

theorem witness_BlockIgnoresIp :
    (nextOf (exec (.pushAX none) wit)).isSome = true ∧
    (match exec (.pushAX none) witNoStack with
      | .fault _ => true
      | .next _ => false
      | .refused _ => false) = true := by
  decide

theorem witness_StepRefusesByReason :
    let s := ready vecRegs [] [0x90]
    let s' := ready vecRegs [] [0xF2, 0x50]
    (s.Running ∧ decode (fetched s) = .error .notPushFamily) ∧
    (s'.Running ∧ decode (fetched s') = .error .unsupportedPrefix) := by
  decide

theorem witness_StopsAreFinal :
    (nextOf (step wit)).isSome = true ∧ (faulted witNoStack).isSome = true ∧
    (refusedAs (ready vecRegs [] [0x90])).isSome = true ∧
    (refusedAs { wit with cfg := ⟨20, [⟨0x60040, 0x60040, 1⟩]⟩ }).isSome = true := by
  decide

theorem witness_ReferenceDispatchNeverViolates :
    wit.fault = none ∧
    (Launch.mk memRegs 0x0040 [] Config.reference []).endsWell { wit with ip := 0x0040 } = true := by
  decide

theorem witness_StepWritesNoRegisterButSp :
    (nextOf (step wit)).isSome = true ∧ (faulted witNoStack).isSome = true := by decide

/-- The bytes fetched after a push into the code: the low byte, the high byte, and one beyond. -/
theorem witness_FetchSeesTheWordPushed :
    let s := ready { memRegs with cs := 0x1000, sp := 0x0043, ax := 0x0653 } [] [0x50, 0x51, 0x52]
    s.Inv ∧ decode (fetched s) = .ok (.pushAX none, [0x51, 0x52, 0, 0]) ∧
    source resolve8086 (invocationOf (.pushAX none)) s = .ok 0x0653 ∧
    (nextOf (step s)).map (fun t => ((fetched t)[0]?, (fetched t)[1]?, (fetched t)[2]?)) =
      some (some 0x53, some 0x06, some 0) := by
  decide

theorem witness_LaunchPlacesTheProgram :
    let l : Launch := ⟨memRegs, 0xFFFE, wordAt 0x31234 0xC0DE, Config.reference, [0x50, 0x51]⟩
    let l' : Launch := ⟨memRegs, 0xFFFE, [], Config.reference, [0x50, 0x51, 0x52]⟩
    (l.ip0.toNat + l.program.length ≤ 0x10000 ∧ Memory.wf l.mem ∧
      l.program.length ≤ 2 ^ l.cfg.paWidth ∧ l.program[1]? = some 0x51) ∧
    0x10000 < l'.ip0.toNat + l'.program.length := by
  decide

theorem witness_FetchWordIsFetched :
    State.reset.Inv ∧ 3 ≤ State.reset.cfg.paWidth ∧
    ∀ n < 5, memAdmits State.reset.cfg
      (codePa State.reset (State.reset.ip + BitVec.ofNat 16 n)) 1 = true := by
  decide

theorem witness_PushesInARow :
    (wit.Inv ∧ ∀ i ∈ [Instr.pushAX none, .pushf none],
      i.wellFormed = true ∧ isMemoryForm i = false) ∧
    (memAdmits wit.cfg (stackPaOf wit 1) 2 = true ∧ memAdmits wit.cfg (stackPaOf wit 2) 2 = true) ∧
    (memAdmits (refusing [0x100FC] wit).cfg (stackPaOf wit 1) 2 = true ∧
      memAdmits (refusing [0x100FC] wit).cfg (stackPaOf wit 2) 2 = false ∧ (refusing [0x100FC] wit).Inv) := by
  decide

theorem witness_StepKeepsForm :
    wit.Inv ∧ (nextOf (step wit)).isSome = true ∧ witNoStack.Inv ∧ (faulted witNoStack).isSome = true := by
  decide

theorem witness_RunsKeepForm :
    let l : Launch := ⟨memRegs, 0, wordAt 0x31234 0xC0DE, Config.reference, [0x50]⟩
    l.bare.Inv ∧
    (match launch l with
      | .next s => (nextOf (runFrom l 2 s)).map fun t => (t.ip, l.endsWell t)
      | .fault _ => none
      | .refused _ => none) = some (1, true) := by
  decide

end Sys2Proof.Tests
end

section
/-! Stops are final (00_scope.md R17): what a step's fault and refusal leave marked, and that the marks
hold the state where it is. -/

namespace Sys2Proof.Machine

/-! ### Completion leaves the marks alone -/

/-- An instruction that completes changes neither mark. -/
theorem exec_next_marks {i : Instr} {s t : State} (h : exec i s = .next t) :
    t.fault = s.fault ∧ t.refused = s.refused := by
  rw [exec_eq_invoke] at h
  obtain ⟨v, -, -, rfl⟩ := invoke_next h
  exact ⟨decrementSp_fault s, decrementSp_refused s⟩

/-- A step answers a next state only from a running state, and that state runs again. -/
theorem step_next_running {s t : State} (h : step s = .next t) : s.Running ∧ t.Running := by
  obtain ⟨hs, i, rest, u, -, hu, rfl⟩ := step_next h
  obtain ⟨hf, hr⟩ := exec_next_marks hu
  exact ⟨hs, hf.trans hs.1, hr.trans hs.2⟩

/-! ### A fault records its cause, and stays -/

/-- A fault is its cause raised over the state it leaves. -/
@[simp] theorem faultOf_cause_left (f : Fault) : faultOf f.cause f.left = f := by
  cases f <;> rfl

/-- An instruction's fault is recorded in the state it leaves, whether its source or its stack write
raised it. -/
theorem exec_fault_recorded {i : Instr} {s : State} {f : Fault} (h : exec i s = .fault f) :
    f.left.fault = some f.cause := by
  rw [exec_eq_invoke] at h
  obtain ⟨c, -, rfl⟩ | ⟨v, -, -, rfl⟩ := invoke_fault h
  · simp
  · simp

/-- A step's fault is recorded in the state it leaves: it was there already, or the instruction's. -/
theorem step_fault_recorded {s : State} {f : Fault} (h : step s = .fault f) :
    f.left.fault = some f.cause := by
  obtain ⟨c, hc, rfl⟩ | ⟨-, i, rest, -, hf⟩ := step_fault h
  · simpa using hc
  · exact exec_fault_recorded hf

/-- A state that records its fault's cause faults the same again. -/
theorem step_left_of_recorded {f : Fault} (h : f.left.fault = some f.cause) :
    step f.left = .fault f := by
  rw [step_faulted h, faultOf_cause_left]

/-! ### A refusal sets its mark, and stays -/

/-- Setting the refusal mark a state already has changes nothing. -/
theorem setRefused_eq_self {s : State} {q : RefusalReason} (h : s.refused = some q) :
    { s with refused := some q } = s := by
  rw [← h]

/-- A step that refuses does so from a state with no fault recorded, and all it does is set the mark. -/
theorem step_refuses_marked {s : State} {r : Refusal} (h : step s = .refused r) :
    s.fault = none ∧ ∃ q, r = refusalOf q { s with refused := some q } := by
  obtain ⟨q, hf, hq, rfl⟩ | ⟨⟨hf, -⟩, e, -, rfl⟩ := step_refuses h
  · exact ⟨hf, q, by rw [setRefused_eq_self hq]⟩
  · exact ⟨hf, refusalReason s e, rfl⟩

/-! ### The obligation -/

/-- Settles O40: each outcome's marks, from what one step can do; a state with a mark answers by it. -/
theorem stopsAreFinal : Obligations.StopsAreFinal := by
  intro s
  refine ⟨fun t ht => step_next_running ht, fun f hf => ?fault, fun r hr => ?refused⟩
  case fault =>
    have hrec : f.left.fault = some f.cause := step_fault_recorded hf
    exact ⟨hrec, step_left_of_recorded hrec⟩
  case refused =>
    obtain ⟨hnone, q, rfl⟩ := step_refuses_marked hr
    exact ⟨q, { s with refused := some q }, rfl, rfl, step_refusedMark hnone rfl, rfl⟩

end Sys2Proof.Machine
end

section
/-! The outcomes of one instruction and of one step, as whole states: what a completed one leaves, and what
a fault leaves. The invariant and the frames of 10_state.md are read off these. -/

namespace Sys2Proof.Machine

/-! ### One instruction -/

/-- The state a push of `v` leaves: SP decremented and the word stored (R93, R97). -/
def afterPush (s : State) (v : Word) : State :=
  { decrementSp s with mem := storeWord s.cfg s.mem (pushAddr s) v }

/-- An instruction completes exactly where its source resolves and its stack write is admitted, and then it
has pushed its source. -/
theorem exec_eq_next_iff {i : Instr} {s t : State} :
    exec i s = .next t ↔
      ∃ v, source resolve8086 (invocationOf i) s = .ok v ∧ s.StackAdmitted ∧ t = afterPush s v := by
  rw [exec_eq_invoke]
  constructor
  · exact invoke_next
  · rintro ⟨v, hsrc, hstack, rfl⟩
    rw [invoke_ok hsrc, pushWord_admitted v hstack, afterPush]

/-- An instruction faults exactly in its source, with nothing changed, or in its stack write, with SP
moved. -/
theorem exec_eq_fault_iff {i : Instr} {s : State} {f : Fault} :
    exec i s = .fault f ↔
      (∃ c, source resolve8086 (invocationOf i) s = .error c ∧
        f = faultOf c { s with fault := some c }) ∨
      (∃ v, source resolve8086 (invocationOf i) s = .ok v ∧ memAdmits s.cfg (pushAddr s) 2 = false ∧
        f = faultOf (.memWrite (pushAddr s) 2)
          { decrementSp s with fault := some (.memWrite (pushAddr s) 2) }) := by
  rw [exec_eq_invoke]
  constructor
  · exact invoke_fault
  · rintro (⟨c, hsrc, rfl⟩ | ⟨v, hsrc, hstack, rfl⟩)
    · rw [invoke_error hsrc, raise]
    · rw [invoke_ok hsrc, pushWord_refused v hstack, raise]

/-- A completed instruction has pushed some word. -/
theorem exec_next_afterPush {i : Instr} {s t : State} (h : exec i s = .next t) :
    ∃ v, t = afterPush s v := by
  obtain ⟨v, -, -, ht⟩ := exec_eq_next_iff.mp h
  exact ⟨v, ht⟩

/-- What an instruction's fault leaves: the state as it was, or with SP decremented, and the fault
recorded (R112 to R114). -/
theorem exec_fault_left {i : Instr} {s : State} {f : Fault} (h : exec i s = .fault f) :
    ∃ c, f.left = { s with fault := some c } ∨ f.left = { decrementSp s with fault := some c } := by
  obtain ⟨c, -, rfl⟩ | ⟨v, -, -, rfl⟩ := exec_eq_fault_iff.mp h
  · exact ⟨c, .inl (faultOf_left _ _)⟩
  · exact ⟨_, .inr (faultOf_left _ _)⟩

/-! ### One step -/

/-- A completed step has pushed a word and moved IP. -/
theorem step_next_afterPush {s t : State} (h : step s = .next t) :
    ∃ v x, t = { afterPush s v with ip := x } := by
  obtain ⟨-, i, rest, u, -, hu, rfl⟩ := step_next h
  obtain ⟨v, rfl⟩ := exec_next_afterPush hu
  exact ⟨v, _, rfl⟩

/-- What a step's fault leaves: the state as it was or with SP decremented, and a fault recorded. -/
theorem step_fault_left {s : State} {f : Fault} (h : step s = .fault f) :
    ∃ c, f.left = { s with fault := some c } ∨ f.left = { decrementSp s with fault := some c } := by
  obtain ⟨c, hc, rfl⟩ | ⟨-, i, rest, -, hf⟩ := step_fault h
  · exact ⟨c, .inl (by rw [faultOf_left, ← hc])⟩
  · exact exec_fault_left hf

end Sys2Proof.Machine
end

section
/-! The invariant (10_state.md R31, 20_memory.md R42, R46): every step keeps it, and so every run. -/

namespace Sys2Proof.Machine

/-! ### Steps -/

/-- Pushing a word keeps the invariant: the store is canonical and at a physical address. -/
theorem afterPush_inv {s : State} (h : s.Inv) (v : Word) : (afterPush s v).Inv := by
  obtain ⟨hwidth, hwf, hrange⟩ := h
  exact ⟨hwidth, storeWord_wf hwf _ _ _, storeWord_inRange hrange (phys_lt _ _ _) v⟩

/-- The invariant speaks of the parameters and memory alone. -/
theorem State.Inv.of_eq {s t : State} (h : s.Inv) (hcfg : t.cfg = s.cfg) (hmem : t.mem = s.mem) :
    t.Inv := by
  rw [State.Inv, hcfg, hmem]
  exact h

theorem step_next_inv {s t : State} (h : s.Inv) (ht : step s = .next t) : t.Inv := by
  obtain ⟨v, x, rfl⟩ := step_next_afterPush ht
  exact (afterPush_inv h v).of_eq rfl rfl

theorem step_fault_inv {s : State} {f : Fault} (h : s.Inv) (hf : step s = .fault f) : f.left.Inv := by
  obtain ⟨c, hleft | hleft⟩ := step_fault_left hf
  · exact h.of_eq (by rw [hleft]) (by rw [hleft])
  · exact h.of_eq (by rw [hleft, decrementSp_cfg]) (by rw [hleft, decrementSp_mem])

/-- Settles O49: a completed step is a store at a physical address, and a fault leaves memory alone. -/
theorem stepKeepsForm : Obligations.StepKeepsForm :=
  fun _ h => ⟨fun _ ht => step_next_inv h ht, fun _ hf => step_fault_inv h hf⟩

/-! ### Runs (70_reset_and_hazards.md R137) -/

/-- Placing code keeps the invariant, byte by byte. -/
theorem placeCode_inv {s : State} (h : s.Inv) (off : Word) (bs : List Byte) :
    (placeCode s off bs).Inv := by
  induction bs generalizing s off with
  | nil => exact h
  | cons b bs ih =>
    obtain ⟨hwidth, hwf, hrange⟩ := h
    have hplaced : State.Inv { s with mem := Memory.write s.mem (codePa s off) b } :=
      ⟨hwidth, write_wf hwf _ _, write_inRange hrange (phys_lt _ _ _) b⟩
    exact ih hplaced (off + 1)

/-- A launch that is not refused starts with its program placed. -/
theorem launch_next {l : Launch} {s : State} (h : launch l = .next s) :
    s = placeCode l.bare l.ip0 l.program := by
  unfold launch at h
  split at h
  · exact (Host.Outcome.next.inj h).symm
  · cases h

/-- What every completed step keeps, every state a run answers has. -/
theorem runFrom_keeps {P : State → Prop} (hstep : ∀ {s t}, P s → step s = .next t → P t) (l : Launch)
    {n : Nat} {s t : State} (hs : P s) (h : runFrom l n s = .next t) : P t := by
  induction n generalizing s with
  | zero =>
    obtain rfl := Host.Outcome.next.inj h
    exact hs
  | succ n ih =>
    rw [runFrom] at h
    split at h
    · obtain rfl := Host.Outcome.next.inj h
      exact hs
    · split at h
      · next u hu => exact ih (hstep hs hu) h
      · cases h
      · cases h

/-- Settles O50: the launch meets the invariant, and every step of the run keeps it. -/
theorem runsKeepForm : Obligations.RunsKeepForm := by
  intro l n s t hbare hlaunch hrun
  obtain rfl := launch_next hlaunch
  exact runFrom_keeps step_next_inv l (placeCode_inv hbare _ _) hrun

end Sys2Proof.Machine
end

section
/-! What an instruction leaves unchanged and does not look at: the registers but SP, IP, and FLAGS
(10_state.md R23 to R29). -/

namespace Sys2Proof.Machine

open Sys2Proof.Statements

/-! ### The register frame of a step -/

/-- SP is the only register a push writes (R94). -/
theorem decrementSp_regs_spMoved (s : State) : (decrementSp s).regs = spMoved s.regs := rfl

/-- Settles O42: a completed step is a push, and a fault leaves the state or the state with SP moved. -/
theorem stepWritesNoRegisterButSp : Obligations.StepWritesNoRegisterButSp := by
  intro s
  refine ⟨fun t ht => ?next, fun f hf => ?fault⟩
  case next =>
    obtain ⟨v, x, rfl⟩ := step_next_afterPush ht
    exact ⟨decrementSp_regs_spMoved s, decrementSp_cfg s⟩
  case fault =>
    obtain ⟨c, hleft | hleft⟩ := step_fault_left hf <;> rw [hleft]
    · exact ⟨.inl rfl, rfl, rfl⟩
    · exact ⟨.inr (decrementSp_regs_spMoved s), decrementSp_cfg s, decrementSp_mem s⟩

/-! ### IP (10_state.md R25) -/

/-- The source is read from the registers and memory alone. -/
theorem source_withIp (R : Resolver) (inv : Invocation) (s : State) (x : Word) :
    source R inv { s with ip := x } = source R inv s := by
  cases inv with
  | pushRm op m d pre =>
    by_cases hreg : m.reg = 6
    · rw [source_pushRm hreg, source_pushRm hreg]
      cases R m d pre s.regs <;> rfl
    · rw [source_pushRm_violation hreg, source_pushRm_violation hreg]
  | pushR op => rfl
  | pushSr op => rfl
  | pushf op => rfl

theorem exec_next_ip {i : Instr} {s t : State} (h : exec i s = .next t) : t.ip = s.ip := by
  obtain ⟨v, rfl⟩ := exec_next_afterPush h
  exact decrementSp_ip s

theorem exec_fault_ip {i : Instr} {s : State} {f : Fault} (h : exec i s = .fault f) :
    f.left.ip = s.ip := by
  obtain ⟨c, hleft | hleft⟩ := exec_fault_left h <;> rw [hleft]
  exact decrementSp_ip s

theorem exec_next_withIp {i : Instr} {s t : State} (h : exec i s = .next t) (x : Word) :
    exec i { s with ip := x } = .next { t with ip := x } := by
  obtain ⟨v, hsrc, hstack, rfl⟩ := exec_eq_next_iff.mp h
  exact exec_eq_next_iff.mpr ⟨v, (source_withIp _ _ s x).trans hsrc, hstack, rfl⟩

theorem exec_fault_withIp {i : Instr} {s : State} {f : Fault} (h : exec i s = .fault f) (x : Word) :
    exec i { s with ip := x } = .fault (faultOf f.cause { f.left with ip := x }) := by
  refine exec_eq_fault_iff.mpr ?_
  obtain ⟨c, hsrc, rfl⟩ | ⟨v, hsrc, hstack, rfl⟩ := exec_eq_fault_iff.mp h
  · exact .inl ⟨c, (source_withIp _ _ s x).trans hsrc, by rw [faultOf_cause, faultOf_left]⟩
  · exact .inr ⟨v, (source_withIp _ _ s x).trans hsrc, hstack, by rw [faultOf_cause, faultOf_left]; rfl⟩

/-- Settles O38: the source does not depend on IP, and the push leaves it alone. -/
theorem blockIgnoresIp : Obligations.BlockIgnoresIp :=
  fun _ _ x => ⟨fun _ ht => ⟨exec_next_ip ht, exec_next_withIp ht x⟩,
    fun _ hf => ⟨exec_fault_ip hf, exec_fault_withIp hf x⟩⟩

/-! ### FLAGS (10_state.md R26) -/

/-- What a push of `v` leaves is what the spec says of it (R97). -/
theorem afterPush_pushed {s : State} (h : s.Inv) (v : Word) : Pushed s (afterPush s v) v := by
  obtain ⟨hwidth, hwf, -⟩ := h
  have hread : ∀ a, Memory.read (afterPush s v).mem a =
      if a = nextPa s.cfg (stackPa s) then highByte v
      else if a = stackPa s then lowByte v else Memory.read s.mem a :=
    read_storeWord hwf s.cfg (stackPa s) v
  have hne : stackPa s ≠ nextPa s.cfg (stackPa s) := (nextPa_ne hwidth (phys_lt _ _ _)).symm
  refine ⟨rfl, ?low, ?high, fun a hlow hhigh => ?other, rfl, rfl, rfl, rfl⟩
  case low => rw [hread, if_neg hne, if_pos rfl]
  case high => rw [hread, if_pos rfl]
  case other => rw [hread, if_neg hhigh, if_neg hlow]

/-- An instruction whose source resolves to `v` and whose stack write is admitted completes, and pushes
`v`. -/
theorem completes_of_source {i : Instr} {s : State} {v : Word} (h : s.Inv) (hstack : StackWritable s)
    (hsrc : source resolve8086 (invocationOf i) s = .ok v) : Completes i s v :=
  ⟨afterPush s v, exec_eq_next_iff.mpr ⟨v, hsrc, hstack, rfl⟩, afterPush_pushed h v⟩

/-- FLAGS is no term of the offset table (R83). -/
theorem baseTerms_writeFlags (m : ModRm) (r : RegFile) (x : Word) :
    baseTerms m (writeReg r .flags x) = baseTerms m r := rfl

theorem resolve8086_writeFlags (m : ModRm) (d : Disp) (pre : Option SegReg) (r : RegFile) (x : Word) :
    resolve8086 m d pre (writeReg r .flags x) = resolve8086 m d pre r := rfl

/-- An operand read does not look at FLAGS. -/
theorem operandRead_withFlags (s : State) (o : Operand) (x : Word) :
    operandRead (withReg .flags x s) o = operandRead s o := by
  cases o with
  | reg g =>
    rw [operandRead_reg, operandRead_reg, withReg, readReg_writeReg_other _ _ (by simp)]
  | mem seg off =>
    rw [operandRead_mem, operandRead_mem, operandPa, withReg, readReg_writeReg_other _ _ (by simp)]
    rfl

/-- No source but that of `pushf` looks at FLAGS. -/
theorem source_withFlags {inv : Invocation} (hinv : ∀ op, inv ≠ .pushf op) (s : State) (x : Word) :
    source resolve8086 inv (withReg .flags x s) = source resolve8086 inv s := by
  cases inv with
  | pushRm op m d pre =>
    by_cases hreg : m.reg = 6
    · rw [source_pushRm hreg, source_pushRm hreg, operandRead_withFlags, withReg,
        resolve8086_writeFlags]
    · rw [source_pushRm_violation hreg, source_pushRm_violation hreg]
  | pushR op => exact congrArg Except.ok (readReg_writeReg_other _ _ (by simp))
  | pushSr op => exact congrArg Except.ok (readReg_writeReg_other _ _ (by simp))
  | pushf op => exact absurd rfl (hinv op)

/-- The decoder port hands `PUSHF` its form for the `pushf` row alone (R73). -/
theorem invocationOf_ne_pushf {i : Instr} (h : ∀ pre, i ≠ .pushf pre) (op : Byte) :
    invocationOf i ≠ .pushf op := by
  cases i
  case pushf pre => exact absurd rfl (h pre)
  all_goals exact Invocation.noConfusion

theorem exec_next_withFlags {i : Instr} {s t : State} (hi : ∀ pre, i ≠ .pushf pre)
    (h : exec i s = .next t) (x : Word) :
    exec i (withReg .flags x s) = .next (withReg .flags x t) := by
  obtain ⟨v, hsrc, hstack, rfl⟩ := exec_eq_next_iff.mp h
  exact exec_eq_next_iff.mpr
    ⟨v, (source_withFlags (invocationOf_ne_pushf hi) s x).trans hsrc, hstack, rfl⟩

/-- Settles O29: a push writes SP alone, `pushf` reads all of FLAGS, and no other source reads it. -/
theorem flagsAreOpaque : Obligations.FlagsAreOpaque := by
  refine ⟨fun i s t h => ?kept, fun pre s h hstack => completes_of_source h hstack rfl,
    fun i s t x hi h => exec_next_withFlags hi h x⟩
  case kept =>
    obtain ⟨v, rfl⟩ := exec_next_afterPush h
    rfl

end Sys2Proof.Machine
end

section
/-! What the decoder answers (30_encoding.md R63 to R78): a well-formed instruction, whose encoding is
exactly the bytes read. -/

namespace Sys2Proof

/-! ### The one-byte rows -/

/-- The bytes of `push r` (R65). -/
theorem encode_pushRRow (k : BitVec 3) (pre : Option SegReg) :
    encode (pushRRow k pre) = preBytes pre ++ [0x50 + k.setWidth 8] := by
  have hk : ∀ k : BitVec 3, k = 0 ∨ k = 1 ∨ k = 2 ∨ k = 3 ∨ k = 4 ∨ k = 5 ∨ k = 6 ∨ k = 7 := by decide
  obtain rfl | rfl | rfl | rfl | rfl | rfl | rfl | rfl := hk k <;> rfl

/-- The bytes of `push sr` (R66). -/
theorem encode_pushSrRow (k : BitVec 2) (pre : Option SegReg) :
    encode (pushSrRow k pre) = preBytes pre ++ [0x06 + 8 * k.setWidth 8] := by
  have hk : ∀ k : BitVec 2, k = 0 ∨ k = 1 ∨ k = 2 ∨ k = 3 := by decide
  obtain rfl | rfl | rfl | rfl := hk k <;> rfl

theorem pushRRow_wellFormed (k : BitVec 3) (pre : Option SegReg) :
    (pushRRow k pre).wellFormed = true := by
  unfold pushRRow
  split <;> rfl

theorem pushSrRow_wellFormed (k : BitVec 2) (pre : Option SegReg) :
    (pushSrRow k pre).wellFormed = true := by
  unfold pushSrRow
  split <;> rfl

/-- An opcode the table routes to `PUSH_R` is 0x50 and its register field (R65, R73). -/
theorem opcode_of_dispatch_pushR {op : Byte} (h : dispatch op 0 = some .pushR) :
    0x50 + (opcodeGprField op).setWidth 8 = op := by
  revert op
  decide

/-- An opcode the table routes to `PUSH_SR` is 0x06 and its segment register field (R66, R73). -/
theorem opcode_of_dispatch_pushSr {op : Byte} (h : dispatch op 0 = some .pushSr) :
    0x06 + 8 * (opcodeSegField op).setWidth 8 = op := by
  revert op
  decide

theorem opcode_of_dispatch_pushf {op : Byte} (h : dispatch op 0 = some .pushf) : op = 0x9C := by
  revert op
  decide

/-- Opcode 0xFF is routed to `PUSH_RM` for register field 6 alone (R73, R76). -/
theorem reg_of_dispatch_pushRm {reg : BitVec 3} (h : dispatch 0xFF reg = some .pushRm) : reg = 6 := by
  revert reg
  decide

/-! ### The decoder, from the inside out -/

/-- `i` is a well-formed instruction whose encoding, with `rest` after it, is `bytes`. -/
def Spells (i : Instr) (rest bytes : List Byte) : Prop :=
  i.wellFormed = true ∧ bytes = encode i ++ rest

theorem decodeRm_spells {pre : Option SegReg} {m : ModRm} {bytes rest : List Byte} {i : Instr}
    (hreg : m.reg = 6) (h : decodeRm pre m bytes = .ok (i, rest)) :
    Spells i rest (preBytes pre ++ 0xFF :: modRmByte m :: bytes) := by
  have hmod : ∀ mod : BitVec 2, mod ≠ 3 → mod ≠ 0 → mod ≠ 1 → mod = 2 := by decide
  obtain ⟨mod, reg, rm⟩ := m
  obtain rfl : reg = 6 := hreg
  unfold decodeRm at h
  split at h
  case isTrue h3 =>
    obtain rfl : mod = 3 := h3
    cases h
    exact ⟨rfl, by simp [encode]⟩
  case isFalse h3 =>
  split at h
  case isTrue hdirect =>
    obtain ⟨rfl, rfl⟩ : mod = 0 ∧ rm = 6 := hdirect
    split at h
    · cases h
      exact ⟨rfl, by simp [encode]⟩
    · cases h
  case isFalse hdirect =>
  split at h
  case isTrue h0 =>
    obtain rfl : mod = 0 := h0
    have hrm : rm ≠ 6 := fun hrm => hdirect ⟨rfl, hrm⟩
    cases h
    exact ⟨by simpa [Instr.wellFormed] using hrm, by simp [encode]⟩
  case isFalse h0 =>
  split at h
  case isTrue h1 =>
    obtain rfl : mod = 1 := h1
    split at h
    · cases h
      exact ⟨rfl, by simp [encode]⟩
    · cases h
  case isFalse h1 =>
    obtain rfl : mod = 2 := hmod mod h3 h0 h1
    split at h
    · cases h
      exact ⟨rfl, by simp [encode]⟩
    · cases h

theorem decodeOpcode_spells {pre : Option SegReg} {bytes rest : List Byte} {i : Instr}
    (h : decodeOpcode pre bytes = .ok (i, rest)) : Spells i rest (preBytes pre ++ bytes) := by
  unfold decodeOpcode at h
  split at h
  · cases h
  next op tail =>
  split at h
  · cases h
  split at h
  case isTrue hop =>
    subst hop
    split at h
    · cases h
    split at h
    · next b tail hroute =>
      have hspells := decodeRm_spells (reg_of_dispatch_pushRm hroute) h
      rwa [modRmByte_modRmOfByte] at hspells
    · cases h
  case isFalse =>
  split at h
  · next hroute =>
    cases h
    refine ⟨pushRRow_wellFormed _ _, ?_⟩
    rw [encode_pushRRow, opcode_of_dispatch_pushR hroute, List.append_assoc, List.singleton_append]
  · next hroute =>
    cases h
    refine ⟨pushSrRow_wellFormed _ _, ?_⟩
    rw [encode_pushSrRow, opcode_of_dispatch_pushSr hroute, List.append_assoc, List.singleton_append]
  · next hroute =>
    cases h
    refine ⟨rfl, ?_⟩
    rw [opcode_of_dispatch_pushf hroute, encode, List.append_assoc, List.singleton_append]
  · cases h

/-- What the decoder reads is a well-formed instruction, and the bytes read are its encoding. -/
theorem decode_spells {bytes rest : List Byte} {i : Instr} (h : decode bytes = .ok (i, rest)) :
    Spells i rest bytes := by
  unfold decode at h
  split at h
  · cases h
  split at h
  · next b tail r hpre =>
    rw [← overrideByte_of_overrideOfByte hpre]
    exact decodeOpcode_spells h
  · exact decodeOpcode_spells h

/-! ### Lengths (R75) -/

/-- The model's facts about the eighteen encodings' lengths, as one. -/
theorem encodedLength : ∀ i : Instr, Laws.EncodedLength.Statement i
  | .pushAX pre => Laws.EncodedLength.pushAX pre
  | .pushCX pre => Laws.EncodedLength.pushCX pre
  | .pushDX pre => Laws.EncodedLength.pushDX pre
  | .pushBX pre => Laws.EncodedLength.pushBX pre
  | .pushSP pre => Laws.EncodedLength.pushSP pre
  | .pushBP pre => Laws.EncodedLength.pushBP pre
  | .pushSI pre => Laws.EncodedLength.pushSI pre
  | .pushDI pre => Laws.EncodedLength.pushDI pre
  | .pushES pre => Laws.EncodedLength.pushES pre
  | .pushCS pre => Laws.EncodedLength.pushCS pre
  | .pushSS pre => Laws.EncodedLength.pushSS pre
  | .pushDS pre => Laws.EncodedLength.pushDS pre
  | .pushf pre => Laws.EncodedLength.pushf pre
  | .pushRmRegister pre reg rm => Laws.EncodedLength.pushRmRegister pre reg rm
  | .pushRmDisp16 pre reg disp => Laws.EncodedLength.pushRmDisp16 pre reg disp
  | .pushRmBaseIndex pre reg rm => Laws.EncodedLength.pushRmBaseIndex pre reg rm
  | .pushRmBaseIndexDisp8 pre reg rm disp => Laws.EncodedLength.pushRmBaseIndexDisp8 pre reg rm disp
  | .pushRmBaseIndexDisp16 pre reg rm disp => Laws.EncodedLength.pushRmBaseIndexDisp16 pre reg rm disp

/-- The bytes of an instruction are as many as the length table gives it. -/
theorem length_encode (i : Instr) : (encode i).length = instrLength i := (encodedLength i).1

theorem decode_length {bytes rest : List Byte} {i : Instr} (h : decode bytes = .ok (i, rest)) :
    bytes.length = instrLength i + rest.length := by
  obtain ⟨-, rfl⟩ := decode_spells h
  rw [List.length_append, length_encode]

end Sys2Proof
end

section
/-! The sequencer's step (10_state.md R25), and reset. -/

namespace Sys2Proof.Machine

/-- A running state whose bytes decode: the step is the instruction's outcome, retired. -/
theorem step_decoded {s : State} {i : Instr} {rest : List Byte} (h : s.Running)
    (hd : decode (fetched s) = .ok (i, rest)) : step s = retire (instrLength i) (exec i s) := by
  rw [step_running h, hd]

/-- Settles O36: the decoder's answer is well-formed and as long as its bytes, the instruction leaves IP
alone, and retiring it adds the length. -/
theorem stepRunsTheDecodedInstruction : Obligations.StepRunsTheDecodedInstruction := by
  intro s i rest hrun hd
  refine ⟨(decode_spells hd).1, decode_length hd, fun t ht => ?next,
    fun f hf => ⟨?fault, exec_fault_ip hf⟩⟩
  case next => rw [step_decoded hrun hd, ht, retire, exec_next_ip ht]
  case fault => rw [step_decoded hrun hd, hf, retire]

/-- Every register reads zero at reset (log entry 1). -/
theorem readReg_zero (id : RegId) : readReg RegFile.zero id = 0 := by
  obtain g | r | _ := id
  · cases g <;> rfl
  · cases r <;> rfl
  · rfl

/-- The reference memory subsystem performs every access below 2^20 (log entry 4). -/
theorem memAdmits_reference (pa n : Nat) :
    memAdmits Config.reference pa n = decide (pa < 2 ^ 20) :=
  Bool.and_true _

/-- Settles O47: the marks and the launch values field by field, from the registers' zero and the reference
parameters. -/
theorem resetState : Obligations.ResetState :=
  ⟨rfl, rfl, readReg_zero, rfl, rfl, rfl, memAdmits_reference⟩

/-- A memory that lists nothing is canonical and inside every address space. -/
theorem nil_wf_inRange (w : Nat) : Memory.wf [] ∧ Memory.inRange [] w :=
  ⟨⟨.nil, List.forall_mem_nil _⟩, List.forall_mem_nil _⟩

/-- Settles O48: the reference width is legal, and memory lists nothing. -/
theorem resetKeepsForm : Obligations.ResetKeepsForm :=
  ⟨by decide, nil_wf_inRange 20⟩

end Sys2Proof.Machine
end

section
/-! The physical address translator (20_memory.md R39 to R43). -/

namespace Sys2Proof.Machine

/-- The translator's formula, on unbounded naturals (R39). -/
theorem phys_eq (c : Config) (seg off : Word) :
    phys c seg off = (seg.toNat * 16 + off.toNat) % 2 ^ c.paWidth := rfl

/-- Settles O7, by the translator's formula and one evaluation. -/
theorem translatorFormula : Obligations.TranslatorFormula :=
  ⟨phys_eq, by decide⟩

/-- No sum of a segment and an offset passes FFFF:FFFF (R41). -/
theorem physSum_le (seg off : Word) : seg.toNat * 16 + off.toNat ≤ 0x10FFEF := by
  have hseg := seg.isLt
  have hoff := off.isLt
  omega

/-- A sum inside the address space is not reduced. -/
theorem phys_eq_sum {c : Config} {seg off : Word} (h : seg.toNat * 16 + off.toNat < 2 ^ c.paWidth) :
    phys c seg off = seg.toNat * 16 + off.toNat := Nat.mod_eq_of_lt h

/-- A width of 21 or more holds every sum, so nothing is reduced. -/
theorem phys_of_width_ge {c : Config} (hc : 21 ≤ c.paWidth) (seg off : Word) :
    phys c seg off = seg.toNat * 16 + off.toNat := by
  apply phys_eq_sum
  calc seg.toNat * 16 + off.toNat ≤ 0x10FFEF := physSum_le seg off
    _ < 2 ^ 21 := by decide
    _ ≤ 2 ^ c.paWidth := Nat.pow_le_pow_right (by decide) hc

/-- At width 20 a sum past the last address wraps once, below the last sixteen bytes of a segment. -/
theorem phys_wraps {c : Config} (hc : c.paWidth = 20) {seg off : Word}
    (h : 0x100000 ≤ seg.toNat * 16 + off.toNat) :
    phys c seg off = seg.toNat * 16 + off.toNat - 0x100000 ∧ phys c seg off ≤ 0x0FFEF := by
  have hle := physSum_le seg off
  have hphys : phys c seg off = (seg.toNat * 16 + off.toNat) % 2 ^ 20 := by rw [phys_eq, hc]
  omega

/-- Below width 20 the segment 0x8000 begins at a multiple of the address space's size, as segment 0
does. -/
theorem phys_aliases {c : Config} (hc : c.paWidth < 20) (off : Word) :
    phys c 0 off = phys c 0x8000 off := by
  obtain ⟨k, hk⟩ : 2 ^ c.paWidth ∣ 2 ^ 19 := Nat.pow_dvd_pow 2 (by omega)
  have hbase : (0x8000 : Word).toNat * 16 = 2 ^ c.paWidth * k := hk
  rw [phys_eq, phys_eq, hbase, Nat.mul_add_mod]
  simp

/-- Settles O8: the bound of the sum, and the three ranges of the width. -/
theorem translatorRange : Obligations.TranslatorRange :=
  ⟨physSum_le, by decide, fun _ seg off hc => phys_of_width_ge hc seg off,
    fun _ _ _ hc h => phys_wraps hc h, by decide, by decide,
    fun _ hc => ⟨0, 0x8000, by decide, phys_aliases hc⟩⟩

/-- Settles O9: where neither sum overflows, both pairs have the sum `seg * 16 + off + 16`. -/
theorem translatorPairsCoincide : Obligations.TranslatorPairsCoincide := by
  refine ⟨fun c seg off hseg hoff => ?_, by decide, by decide⟩
  have hseg' : (seg + 1).toNat = seg.toNat + 1 := by bv_omega
  have hoff' : (off + 16).toNat = off.toNat + 16 := by bv_omega
  rw [phys_eq, phys_eq, hseg', hoff']
  congr 1
  omega

/-- In an address space of at least eight bytes the low three bits of an address are the offset's: a segment
begins at a multiple of 16. -/
theorem phys_mod_eight {c : Config} (hc : 3 ≤ c.paWidth) (seg off : Word) :
    phys c seg off % 8 = off.toNat % 8 := by
  have hdvd : 8 ∣ 2 ^ c.paWidth := Nat.pow_dvd_pow 2 hc
  rw [phys_eq, Nat.mod_mod_of_dvd _ hdvd]
  omega

end Sys2Proof.Machine
end

section
/-! Words in memory and the canonical form (20_memory.md R46 to R50). -/

namespace Sys2Proof.Machine

/-! ### The two bytes of a word -/

theorem lowByte_toNat (v : Word) : (lowByte v).toNat = v.toNat % 256 := by
  simp [lowByte]

theorem highByte_toNat (v : Word) : (highByte v).toNat = v.toNat / 256 := by
  have hv := v.isLt
  rw [highByte, BitVec.extractLsb'_toNat, Nat.shiftRight_eq_div_pow]
  omega

theorem wordOfBytes_toNat (lo hi : Byte) : (wordOfBytes lo hi).toNat = 256 * hi.toNat + lo.toNat := by
  have hlow := lowByte_toNat (wordOfBytes lo hi)
  have hhigh := highByte_toNat (wordOfBytes lo hi)
  rw [lowByte_wordOfBytes] at hlow
  rw [highByte_wordOfBytes] at hhigh
  omega

/-! ### Word accesses -/

/-- Only physical addresses are admitted (R45). -/
theorem lt_of_memAdmits {c : Config} {pa n : Nat} (h : memAdmits c pa n = true) : pa < 2 ^ c.paWidth :=
  of_decide_eq_true (Bool.and_eq_true_iff.mp h).1

/-- A word write that succeeds was admitted, and stored the word. -/
theorem memWrite_ok {s t : State} {pa : Nat} {v : Word} (h : memWrite s pa v = .ok t) :
    memAdmits s.cfg pa 2 = true ∧ t = { s with mem := storeWord s.cfg s.mem pa v } := by
  rcases hb : memAdmits s.cfg pa 2 with _ | _
  · rw [memWrite_refused v hb] at h
    cases h
  · rw [memWrite_admitted v hb] at h
    exact ⟨rfl, (Except.ok.inj h).symm⟩

/-- A word read that succeeds was admitted, and gave the word. -/
theorem memRead_ok {s : State} {pa : Nat} {w : Word} (h : memRead s pa = .ok w) :
    memAdmits s.cfg pa 2 = true ∧ w = loadWord s.cfg s.mem pa := by
  rcases hb : memAdmits s.cfg pa 2 with _ | _
  · rw [memRead_refused hb] at h
    cases h
  · rw [memRead_admitted hb] at h
    exact ⟨rfl, (Except.ok.inj h).symm⟩

/-- The low byte of a stored word is at its address, the successor being another one. -/
theorem read_storeWord_low {m : Memory} (h : Memory.wf m) {c : Config} (hc : c.wf) {pa : Nat}
    (hpa : pa < 2 ^ c.paWidth) (v : Word) : Memory.read (storeWord c m pa v) pa = lowByte v := by
  rw [read_storeWord h, if_neg (nextPa_ne hc hpa).symm, if_pos rfl]

/-- The high byte of a stored word is at the next address. -/
theorem read_storeWord_high {m : Memory} (h : Memory.wf m) (c : Config) (pa : Nat) (v : Word) :
    Memory.read (storeWord c m pa v) (nextPa c pa) = highByte v := by
  rw [read_storeWord h, if_pos rfl]

/-- A word loaded where a word was stored is that word (R57). -/
theorem loadWord_storeWord {m : Memory} (h : Memory.wf m) {c : Config} (hc : c.wf) {pa : Nat}
    (hpa : pa < 2 ^ c.paWidth) (v : Word) : loadWord c (storeWord c m pa v) pa = v := by
  rw [loadWord, read_storeWord_low h hc hpa, read_storeWord_high h, wordOfBytes_low_high]

/-- Settles O10: the byte each address reads as after a word is stored, and the write that is refused. -/
theorem wordWriteIsLittleEndian : Obligations.WordWriteIsLittleEndian := by
  rintro s pa v ⟨hwidth, hwf, -⟩ hpa
  refine ⟨fun hadm => ⟨storeWord s.cfg s.mem pa v, memWrite_admitted v hadm, ?low, ?high,
    fun a hlow hhigh => ?other⟩, memWrite_refused v⟩
  case low => rw [read_storeWord_low hwf hwidth hpa, lowByte_toNat]
  case high => exact (congrArg BitVec.toNat (read_storeWord_high hwf s.cfg pa v)).trans (highByte_toNat v)
  case other => exact (read_storeWord hwf s.cfg pa v a).trans ((if_neg hhigh).trans (if_neg hlow))

/-- Settles O11: a load joins the two bytes, the next address's above. -/
theorem wordReadIsLittleEndian : Obligations.WordReadIsLittleEndian :=
  fun _ _ => ⟨fun hadm => ⟨_, memRead_admitted hadm, wordOfBytes_toNat _ _⟩, memRead_refused⟩

/-- Settles O12: a load gives the stored word back, and the load at the next address begins with the byte
stored there. -/
theorem wordReadSeesWordWritten : Obligations.WordReadSeesWordWritten := by
  rintro s t pa v ⟨hwidth, hwf, -⟩ hwrite
  obtain ⟨hadm, rfl⟩ := memWrite_ok hwrite
  refine ⟨?same, fun w hread => ?next⟩
  case same =>
    have hword : loadWord s.cfg (storeWord s.cfg s.mem pa v) pa = v :=
      loadWord_storeWord hwf hwidth (lt_of_memAdmits hadm) v
    exact (if_pos hadm).trans (congrArg Except.ok hword)
  case next =>
    obtain ⟨-, rfl⟩ := memRead_ok hread
    rw [loadWord, lowByte_wordOfBytes, read_storeWord_high hwf]

/-! ### Canonical memories -/

/-- The first listed byte of a canonical memory is no unlisted one. -/
theorem read_head_ne_unlisted {a : Nat} {v : Byte} {m : Memory} (h : Memory.wf ((a, v) :: m)) :
    Memory.read ((a, v) :: m) a ≠ unlistedByte := by
  rw [read_cons, if_pos rfl]
  exact h.2 _ List.mem_cons_self

/-- Taking the first cell off a canonical memory unlists its address and no other. -/
theorem read_tail {a : Nat} {v : Byte} {m : Memory} (h : Memory.wf ((a, v) :: m)) (x : Nat) :
    Memory.read m x = if x = a then unlistedByte else Memory.read ((a, v) :: m) x := by
  split
  · next hx => exact hx ▸ read_of_below (wf_head_below h)
  · next hx => rw [read_cons, if_neg hx]

/-- Of two canonical memories that read alike, neither lists an address below the other's first. -/
theorem head_not_below {a b : Nat} {v w : Byte} {m m' : Memory} (h : Memory.wf ((a, v) :: m))
    (h' : Memory.wf ((b, w) :: m'))
    (hread : ∀ x, Memory.read ((a, v) :: m) x = Memory.read ((b, w) :: m') x) : ¬ a < b := by
  intro hab
  apply read_head_ne_unlisted h
  rw [hread, read_of_below]
  intro d hd
  rcases List.mem_cons.mp hd with rfl | hd
  · exact hab
  · exact Nat.lt_trans hab (wf_head_below h' d hd)

/-- Settles O13, by induction on the list: the first cells agree, and the rest read alike. -/
theorem canonicalMemoriesReadAlikeAreEqual : Obligations.CanonicalMemoriesReadAlikeAreEqual := by
  intro m
  induction m with
  | nil =>
    rintro (_ | ⟨⟨b, w⟩, m'⟩) - h' hread
    · rfl
    · exact absurd (hread b).symm (read_head_ne_unlisted h')
  | cons c m ih =>
    obtain ⟨a, v⟩ := c
    rintro (_ | ⟨⟨b, w⟩, m'⟩) h h' hread
    · exact absurd (hread a) (read_head_ne_unlisted h)
    · have hnot := head_not_below h h' hread
      have hnot' := head_not_below h' h fun x => (hread x).symm
      obtain rfl : a = b := by omega
      have hbyte : v = w := by simpa [read_cons] using hread a
      have htail : m = m' := ih m' (wf_tail h) (wf_tail h') fun x => by
        rw [read_tail h, read_tail h', hread]
      rw [hbyte, htail]

end Sys2Proof.Machine
end

section
/-! Fetching what memory holds (20_memory.md R44, R61): the byte at each offset, after a push and after
bytes are placed. -/

namespace Sys2Proof.Machine

open Sys2Proof.Statements

/-! ### The bytes fetched -/

/-- Counting offsets from the next byte on. -/
theorem offset_succ (off : Word) (k : Nat) :
    off + 1 + BitVec.ofNat 16 k = off + BitVec.ofNat 16 (k + 1) := by
  rw [Nat.add_comm k 1, BitVec.ofNat_add, ← BitVec.add_assoc]
  rfl

/-- Code addresses depend on CS and the parameters, not on what memory holds. -/
theorem codePa_withMem (s : State) (m : Memory) (off : Word) :
    codePa { s with mem := m } off = codePa s off := rfl

/-- Every byte fetched is the one memory holds at its offset. -/
theorem read_of_fetchBytes {t : State} {n k : Nat} {off : Word} {b : Byte}
    (h : (fetchBytes t n off)[k]? = some b) :
    b = Memory.read t.mem (codePa t (off + BitVec.ofNat 16 k)) := by
  induction n generalizing off k with
  | zero => simp [fetchBytes] at h
  | succ n ih =>
    rw [fetchBytes] at h
    split at h
    · cases k with
      | zero => simpa using h.symm
      | succ k =>
        rw [List.getElem?_cons_succ] at h
        rw [← offset_succ]
        exact ih h
    · simp at h

/-- Bytes that memory holds from an offset on, each admitted, are what is fetched there. -/
theorem fetchBytes_eq {t : State} {off : Word} {bs : List Byte}
    (hadm : ∀ k < bs.length, memAdmits t.cfg (codePa t (off + BitVec.ofNat 16 k)) 1 = true)
    (hread : ∀ k b, bs[k]? = some b → Memory.read t.mem (codePa t (off + BitVec.ofNat 16 k)) = b) :
    fetchBytes t bs.length off = bs := by
  induction bs generalizing off with
  | nil => rfl
  | cons b bs ih =>
    have hadm0 : memAdmits t.cfg (codePa t off) 1 = true := by simpa using hadm 0 (by simp)
    have hread0 : Memory.read t.mem (codePa t off) = b := by simpa using hread 0 b rfl
    rw [List.length_cons, fetchBytes, if_pos hadm0, hread0, ih]
    · intro k hk
      rw [offset_succ]
      exact hadm (k + 1) (Nat.succ_lt_succ hk)
    · intro k b' hb
      rw [offset_succ]
      exact hread (k + 1) b' hb

/-! ### Fetching after a push -/

/-- A completed step, its instruction and source known: the push of that source, IP moved past it. -/
theorem step_next_of_source {s t : State} {i : Instr} {rest : List Byte} {v : Word}
    (hd : decode (fetched s) = .ok (i, rest)) (hsrc : source resolve8086 (invocationOf i) s = .ok v)
    (h : step s = .next t) : ∃ x, t = { afterPush s v with ip := x } := by
  obtain ⟨-, i', rest', u, hd', hu, rfl⟩ := step_next h
  obtain ⟨rfl, -⟩ := Prod.mk.inj (Except.ok.inj (hd.symm.trans hd'))
  obtain ⟨v', hsrc', -, rfl⟩ := exec_eq_next_iff.mp hu
  obtain rfl := Except.ok.inj (hsrc.symm.trans hsrc')
  exact ⟨_, rfl⟩

/-- Settles O43: a fetch reads memory as it is, and after a step that is memory with the word stored. -/
theorem fetchSeesTheWordPushed : Obligations.FetchSeesTheWordPushed := by
  refine ⟨fun t n b hb => read_of_fetchBytes hb, fun s t i rest v n b hinv hd hsrc ht hb => ?pushed⟩
  obtain ⟨-, hwf, -⟩ := hinv
  have hmem : t.mem = storeWord s.cfg s.mem (stackPa s) v := by
    obtain ⟨x, rfl⟩ := step_next_of_source hd hsrc ht
    rfl
  have hread := read_of_fetchBytes hb
  rw [hmem, read_storeWord hwf] at hread
  exact hread

/-! ### Fetching what was placed -/

/-- Placing bytes leaves every address alone that none of them goes to. -/
theorem read_placeCode_other {s : State} (h : Memory.wf s.mem) {off : Word} {bs : List Byte} {a : Nat}
    (ha : ∀ k < bs.length, a ≠ codePa s (off + BitVec.ofNat 16 k)) :
    Memory.read (placeCode s off bs).mem a = Memory.read s.mem a := by
  induction bs generalizing s off with
  | nil => rfl
  | cons b bs ih =>
    have ha0 : a ≠ codePa s off := by simpa using ha 0 (by simp)
    rw [placeCode, ih (write_wf h _ _), read_write_other h _ ha0]
    intro k hk
    rw [offset_succ]
    exact ha (k + 1) (Nat.succ_lt_succ hk)

/-- Bytes placed at addresses that are all distinct are each read back. -/
theorem read_placeCode {s : State} (h : Memory.wf s.mem) {off : Word} {bs : List Byte}
    (hdistinct : ∀ j k, j < k → k < bs.length →
      codePa s (off + BitVec.ofNat 16 j) ≠ codePa s (off + BitVec.ofNat 16 k))
    {n : Nat} {b : Byte} (hb : bs[n]? = some b) :
    Memory.read (placeCode s off bs).mem (codePa s (off + BitVec.ofNat 16 n)) = b := by
  induction bs generalizing s off n with
  | nil => simp at hb
  | cons c bs ih =>
    rw [placeCode]
    cases n with
    | zero =>
      obtain rfl : c = b := by simpa using hb
      rw [BitVec.add_zero, read_placeCode_other (write_wf h _ _), read_write_same h]
      intro k hk
      rw [offset_succ]
      simpa [codePa_withMem] using hdistinct 0 (k + 1) (Nat.succ_pos k) (Nat.succ_lt_succ hk)
    | succ n =>
      rw [← offset_succ]
      refine ih (write_wf h _ _) (fun j k hjk hk => ?_) (by simpa using hb)
      rw [offset_succ, offset_succ]
      exact hdistinct (j + 1) (k + 1) (Nat.succ_lt_succ hjk) (Nat.succ_lt_succ hk)

/-- In an address space of at least eight bytes, fewer than eight offsets in a row name distinct
addresses. -/
theorem codePa_distinct {s : State} (hc : 3 ≤ s.cfg.paWidth) (off : Word) {j k : Nat} (hjk : j < k)
    (hk : k < 8) : codePa s (off + BitVec.ofNat 16 j) ≠ codePa s (off + BitVec.ofNat 16 k) := by
  intro heq
  have hmod : (off + BitVec.ofNat 16 j).toNat % 8 = (off + BitVec.ofNat 16 k).toNat % 8 := by
    rw [← phys_mod_eight hc, ← phys_mod_eight hc]
    exact congrArg (· % 8) heq
  rw [BitVec.toNat_add, BitVec.toNat_add, BitVec.toNat_ofNat, BitVec.toNat_ofNat] at hmod
  omega

/-- The table's words are as long as the longest instruction. -/
theorem tableBytes_length (nbits w : Nat) : (tableBytes nbits w).length = maxInstrLength := by
  unfold tableBytes
  split <;> rfl

/-- Settles O45: the five bytes go to distinct addresses, so each is read back where it is fetched. -/
theorem fetchWordIsFetched : Obligations.FetchWordIsFetched := by
  rintro s nbits w ⟨-, hwf, -⟩ hwidth hadm
  refine ⟨?_, clearMarks_fault _, clearMarks_refused _⟩
  have hlen := tableBytes_length nbits w
  have hfetch : fetchBytes (s.withFetchWord nbits w) (tableBytes nbits w).length s.ip =
      tableBytes nbits w := by
    refine fetchBytes_eq (fun k hk => ?admitted) (fun k b hb => ?placed)
    case admitted =>
      rw [hlen] at hk
      simpa [State.withFetchWord, codePa] using hadm k hk
    case placed =>
      have hplaced := read_placeCode hwf (off := s.ip) (fun j k hjk hk =>
        codePa_distinct hwidth s.ip hjk (by rw [hlen, maxInstrLength] at hk; omega)) hb
      simpa [State.withFetchWord, codePa] using hplaced
  rw [hlen] at hfetch
  simpa [fetched, State.withFetchWord] using hfetch

end Sys2Proof.Machine
end

section
/-! What a push reads of memory (20_memory.md R52): its operand word, or nothing. -/

namespace Sys2Proof.Machine

open Sys2Proof.Statements

/-! ### The source, by what it reads -/

/-- A word read depends on the parameters and the word alone. -/
theorem memRead_withMem {s : State} {m : Memory} {pa : Nat}
    (h : loadWord s.cfg m pa = loadWord s.cfg s.mem pa) :
    memRead { s with mem := m } pa = memRead s pa := by
  simp only [memRead, h]

/-- The source of an instruction that is no memory form is a register: memory is not read. -/
theorem source_withMem_of_not_memoryForm {i : Instr} (hi : isMemoryForm i = false) (s : State)
    (m : Memory) :
    source resolve8086 (invocationOf i) { s with mem := m } =
      source resolve8086 (invocationOf i) s := by
  cases i
  case pushRmRegister pre reg rm =>
    by_cases hreg : reg = 6
    · rw [invocationOf, source_pushRm hreg, source_pushRm hreg, resolve8086_register rfl,
        operandRead_reg, operandRead_reg]
    · rw [invocationOf, source_pushRm_violation hreg, source_pushRm_violation hreg]
  case pushRmDisp16 => cases hi
  case pushRmBaseIndex => cases hi
  case pushRmBaseIndexDisp8 => cases hi
  case pushRmBaseIndexDisp16 => cases hi
  all_goals rfl

/-- The value of a segment register, through the register file port. -/
theorem readReg_seg (r : RegFile) (seg : SegReg) : readReg r (.seg seg) = segValue r seg := by
  cases seg <;> rfl

/-- The offset's register terms are the spec's table's, where the form is not the direct address (R83). -/
theorem baseTerms_eq_offsetTerms {m : ModRm} (h : ¬ (m.mod = 0 ∧ m.rm = 6)) (r : RegFile) :
    baseTerms m r = offsetTerms r m.rm := by
  have hrows : ∀ k : BitVec 3, k ≠ 6 →
      k = 0 ∨ k = 1 ∨ k = 2 ∨ k = 3 ∨ k = 4 ∨ k = 5 ∨ k = 7 := by decide
  obtain ⟨mod, reg, rm⟩ := m
  by_cases hrm : rm = 6
  · subst hrm
    exact if_neg fun hmod => h ⟨hmod, rfl⟩
  · obtain rfl | rfl | rfl | rfl | rfl | rfl | rfl := hrows rm hrm <;> rfl

/-- The default segment is the table's, where the form is not the direct address (R85). -/
theorem defaultSeg_eq_defaultSegOf {m : ModRm} (h : ¬ (m.mod = 0 ∧ m.rm = 6)) :
    defaultSeg m = defaultSegOf m.rm := by
  have key : ∀ (mod : BitVec 2) (reg rm : BitVec 3), ¬ (mod = 0 ∧ rm = 6) →
      defaultSeg ⟨mod, reg, rm⟩ = defaultSegOf rm := by decide
  exact key m.mod m.reg m.rm h

/-- An override replaces the default segment (R86). -/
theorem operandSeg_eq_getD (m : ModRm) (pre : Option SegReg) :
    operandSeg m pre = pre.getD (defaultSeg m) := by
  cases pre <;> rfl

/-- A memory operand is read at its segment and offset (R88). -/
theorem source_memory {op : Byte} {m : ModRm} (hreg : m.reg = 6) (hmem : m.mod ≠ 0b11) (d : Disp)
    (pre : Option SegReg) (s : State) :
    source resolve8086 (.pushRm op m d pre) s =
      memRead s (phys s.cfg (segValue s.regs (pre.getD (defaultSeg m)))
        (baseTerms m s.regs + dispValue d)) := by
  rw [source_pushRm hreg, resolve8086_memory hmem, operandRead_mem, operandPa, readReg_seg,
    operandSeg_eq_getD]

/-- The same, by the spec's table, where the form is not the direct address. -/
theorem source_memory_table {op : Byte} {m : ModRm} (hreg : m.reg = 6) (hmem : m.mod ≠ 0b11)
    (h : ¬ (m.mod = 0 ∧ m.rm = 6)) (d : Disp) (pre : Option SegReg) (s : State) :
    source resolve8086 (.pushRm op m d pre) s =
      memRead s (phys s.cfg (segValue s.regs (pre.getD (defaultSegOf m.rm)))
        (offsetTerms s.regs m.rm + dispValue d)) := by
  rw [source_memory hreg hmem, baseTerms_eq_offsetTerms h, defaultSeg_eq_defaultSegOf h]

/-- The source of a memory form is its operand word, read (R83 to R88). -/
theorem source_memForm {pre : Option SegReg} {rm : BitVec 3} {d8 : Byte} {d16 : Word} {f : MemForm}
    (hf : f ∈ memForms pre rm d8 d16) (hwell : f.instr.wellFormed = true) (s : State) :
    source resolve8086 (invocationOf f.instr) s = memRead s (f.pa s) := by
  simp only [memForms, List.mem_cons, List.not_mem_nil, or_false] at hf
  obtain rfl | rfl | rfl | rfl := hf
  · have hsource := source_memory (op := 0xFF) (m := ⟨0, 6, 6⟩) rfl (by decide) (.d16 d16) pre s
    rwa [show baseTerms ⟨0, 6, 6⟩ s.regs + dispValue (.d16 d16) = d16 from BitVec.zero_add d16]
      at hsource
  · have hrm : rm ≠ 6 := by simpa [Instr.wellFormed] using hwell
    have hsource := source_memory_table (op := 0xFF) (m := ⟨0, 6, rm⟩) rfl
      (show (0 : BitVec 2) ≠ 3 by decide) (fun h => hrm h.2) .none pre s
    rwa [show offsetTerms s.regs rm + dispValue .none = offsetTerms s.regs rm from BitVec.add_zero _]
      at hsource
  · exact source_memory_table (m := ⟨1, 6, rm⟩) rfl (show (1 : BitVec 2) ≠ 3 by decide)
      (fun h => absurd h.1 (show (1 : BitVec 2) ≠ 0 by decide)) (.d8 d8) pre s
  · exact source_memory_table (m := ⟨2, 6, rm⟩) rfl (show (2 : BitVec 2) ≠ 3 by decide)
      (fun h => absurd h.1 (show (2 : BitVec 2) ≠ 0 by decide)) (.d16 d16) pre s

/-! ### The same push over another memory -/

/-- A completed push whose source is the same over another memory writes the same word into that one. -/
theorem exec_next_withMem {i : Instr} {s t : State} {m : Memory} (h : s.Inv)
    (hsrc : source resolve8086 (invocationOf i) { s with mem := m } =
      source resolve8086 (invocationOf i) s) (ht : exec i s = .next t) :
    exec i { s with mem := m } =
      .next { t with mem := storeWord s.cfg m (stackPa s) (loadWord s.cfg t.mem (stackPa s)) } := by
  obtain ⟨hwidth, hwf, -⟩ := h
  obtain ⟨v, hv, hstack, rfl⟩ := exec_eq_next_iff.mp ht
  have hword : loadWord s.cfg (afterPush s v).mem (stackPa s) = v :=
    loadWord_storeWord hwf hwidth (phys_lt _ _ _) v
  rw [hword]
  exact exec_eq_next_iff.mpr ⟨v, hsrc.trans hv, hstack, rfl⟩

/-- Settles O30: neither source changes with the memory, a register's at all, a memory form's where the
operand word is the same. -/
theorem pushReadsAtMostItsOperandWord : Obligations.PushReadsAtMostItsOperandWord := by
  refine ⟨fun i s t m hinv hi ht => ?register,
    fun pre rm d8 d16 f hf hwell s t m hinv hword ht => ?memory⟩
  case register => exact exec_next_withMem hinv (source_withMem_of_not_memoryForm hi s m) ht
  case memory =>
    refine exec_next_withMem hinv ?_ ht
    rw [source_memForm hf hwell, source_memForm hf hwell]
    exact memRead_withMem hword

end Sys2Proof.Machine
end

section
/-! What the decoder answers on given bytes (30_encoding.md R63 to R77): an instruction's encoding gives the
instruction back, with an override before it too. -/

namespace Sys2Proof

open Sys2Proof.Statements

/-! ### Prefixes (R72) -/

/-- The four overrides, LOCK and the two repeats, listed. -/
theorem isPrefixByte_iff (op : Byte) :
    isPrefixByte op = true ↔ op ∈ ([0x26, 0x2E, 0x36, 0x3E, 0xF0, 0xF2, 0xF3] : List Byte) := by
  revert op
  decide

theorem overrideOfByte_of_not_prefix {op : Byte} (h : isPrefixByte op = false) :
    overrideOfByte op = none := by
  revert op
  decide

/-- After an override the rest is read as an opcode, whatever it is. -/
theorem decode_override (r : SegReg) (bytes : List Byte) :
    decode (overrideByte r :: bytes) = decodeOpcode (some r) bytes := by
  simp only [decode, overrideOfByte_overrideByte]

/-- With or without an override before it, a byte that is no override is read as the opcode. -/
theorem decode_preBytes {op : Byte} (h : overrideOfByte op = none) (pre : Option SegReg)
    (rest : List Byte) : decode (preBytes pre ++ op :: rest) = decodeOpcode pre (op :: rest) := by
  cases pre with
  | none => simp only [preBytes, List.nil_append, decode, h]
  | some r => exact decode_override r (op :: rest)

/-- One of those bytes where the opcode is expected is refused, whatever follows it. -/
theorem decodeOpcode_prefixByte {op : Byte} (h : isPrefixByte op = true) (pre : Option SegReg)
    (rest : List Byte) : decodeOpcode pre (op :: rest) = .error .unsupportedPrefix := by
  simp only [decodeOpcode, h, if_true]

/-! ### The rows' bytes decode to their rows -/

/-- 0x50 + k is the `push r` of register `k` (R65). -/
theorem decode_pushR (k : BitVec 3) (pre : Option SegReg) (rest : List Byte) :
    decode (preBytes pre ++ (0x50 + k.setWidth 8) :: rest) = .ok (pushRRow k pre, rest) := by
  have hbits : ∀ k : BitVec 3, isPrefixByte (0x50 + k.setWidth 8) = false ∧
      (0x50 + k.setWidth 8 : Byte) ≠ 0xFF ∧ dispatch (0x50 + k.setWidth 8) 0 = some .pushR ∧
      opcodeGprField (0x50 + k.setWidth 8) = k := by decide
  obtain ⟨hprefix, hff, hroute, hfield⟩ := hbits k
  rw [decode_preBytes (overrideOfByte_of_not_prefix hprefix)]
  simp only [decodeOpcode, hprefix, hff, hroute, hfield, Bool.false_eq_true, if_false]

/-- 0x06 + 8k is the `push sr` of segment register `k` (R66). -/
theorem decode_pushSr (k : BitVec 2) (pre : Option SegReg) (rest : List Byte) :
    decode (preBytes pre ++ (0x06 + 8 * k.setWidth 8) :: rest) = .ok (pushSrRow k pre, rest) := by
  have hbits : ∀ k : BitVec 2, isPrefixByte (0x06 + 8 * k.setWidth 8) = false ∧
      (0x06 + 8 * k.setWidth 8 : Byte) ≠ 0xFF ∧ dispatch (0x06 + 8 * k.setWidth 8) 0 = some .pushSr ∧
      opcodeSegField (0x06 + 8 * k.setWidth 8) = k := by decide
  obtain ⟨hprefix, hff, hroute, hfield⟩ := hbits k
  rw [decode_preBytes (overrideOfByte_of_not_prefix hprefix)]
  simp only [decodeOpcode, hprefix, hff, hroute, hfield, Bool.false_eq_true, if_false]

/-- 0xFF with register field 6 is read on by its ModRM fields (R68). -/
theorem decodeOpcode_pushRm {b : Byte} (h : (modRmOfByte b).reg = 6) (pre : Option SegReg)
    (rest : List Byte) :
    decodeOpcode pre (0xFF :: b :: rest) = decodeRm pre (modRmOfByte b) rest := by
  have hprefix : isPrefixByte 0xFF = false := rfl
  have hroute : dispatch 0xFF 6 = some .pushRm := rfl
  simp only [decodeOpcode, hprefix, h, hroute, Bool.false_eq_true, if_false, if_true]

/-- The ModRM byte of register field 6 is read back, with or without an override before the opcode. -/
theorem decode_pushRm (mod : BitVec 2) (rm : BitVec 3) (pre : Option SegReg) (rest : List Byte) :
    decode (preBytes pre ++ 0xFF :: modRmByte ⟨mod, 6, rm⟩ :: rest) =
      decodeRm pre ⟨mod, 6, rm⟩ rest := by
  rw [decode_preBytes rfl, decodeOpcode_pushRm (by rw [modRmOfByte_modRmByte]), modRmOfByte_modRmByte]

/-! ### The ModRM forms (R70, R74) -/

theorem decodeRm_register (pre : Option SegReg) (reg rm : BitVec 3) (rest : List Byte) :
    decodeRm pre ⟨3, reg, rm⟩ rest = .ok (.pushRmRegister pre reg rm, rest) := rfl

theorem decodeRm_disp16 (pre : Option SegReg) (reg : BitVec 3) (d : Word) (rest : List Byte) :
    decodeRm pre ⟨0, reg, 6⟩ (lowByte d :: highByte d :: rest) =
      .ok (.pushRmDisp16 pre reg d, rest) := by
  conv_rhs => rw [← Machine.wordOfBytes_low_high d]
  rfl

theorem decodeRm_baseIndex (pre : Option SegReg) (reg : BitVec 3) {rm : BitVec 3} (h : rm ≠ 6)
    (rest : List Byte) : decodeRm pre ⟨0, reg, rm⟩ rest = .ok (.pushRmBaseIndex pre reg rm, rest) := by
  unfold decodeRm
  rw [if_neg (show (0 : BitVec 2) ≠ 3 by decide), if_neg fun hdirect => h hdirect.2, if_pos rfl]

theorem decodeRm_baseIndexDisp8 (pre : Option SegReg) (reg rm : BitVec 3) (d : Byte)
    (rest : List Byte) :
    decodeRm pre ⟨1, reg, rm⟩ (d :: rest) = .ok (.pushRmBaseIndexDisp8 pre reg rm d, rest) := rfl

theorem decodeRm_baseIndexDisp16 (pre : Option SegReg) (reg rm : BitVec 3) (d : Word)
    (rest : List Byte) :
    decodeRm pre ⟨2, reg, rm⟩ (lowByte d :: highByte d :: rest) =
      .ok (.pushRmBaseIndexDisp16 pre reg rm d, rest) := by
  conv_rhs => rw [← Machine.wordOfBytes_low_high d]
  rfl

/-! ### The round trip -/

theorem decode_encode_pushRRow (k : BitVec 3) (pre : Option SegReg) (rest : List Byte) :
    decode (encode (pushRRow k pre) ++ rest) = .ok (pushRRow k pre, rest) := by
  rw [encode_pushRRow, List.append_assoc]
  exact decode_pushR k pre rest

theorem decode_encode_pushSrRow (k : BitVec 2) (pre : Option SegReg) (rest : List Byte) :
    decode (encode (pushSrRow k pre) ++ rest) = .ok (pushSrRow k pre, rest) := by
  rw [encode_pushSrRow, List.append_assoc]
  exact decode_pushSr k pre rest

/-- Decoding an encoded well-formed instruction gives it back: the rows by their register index, `pushf`
by its one opcode, `push r/m` by its ModRM form. -/
theorem decode_encode {i : Instr} (h : i.wellFormed = true) (rest : List Byte) :
    decode (encode i ++ rest) = .ok (i, rest) := by
  cases i with
  | pushAX pre => exact decode_encode_pushRRow 0 pre rest
  | pushCX pre => exact decode_encode_pushRRow 1 pre rest
  | pushDX pre => exact decode_encode_pushRRow 2 pre rest
  | pushBX pre => exact decode_encode_pushRRow 3 pre rest
  | pushSP pre => exact decode_encode_pushRRow 4 pre rest
  | pushBP pre => exact decode_encode_pushRRow 5 pre rest
  | pushSI pre => exact decode_encode_pushRRow 6 pre rest
  | pushDI pre => exact decode_encode_pushRRow 7 pre rest
  | pushES pre => exact decode_encode_pushSrRow 0 pre rest
  | pushCS pre => exact decode_encode_pushSrRow 1 pre rest
  | pushSS pre => exact decode_encode_pushSrRow 2 pre rest
  | pushDS pre => exact decode_encode_pushSrRow 3 pre rest
  | pushf pre =>
    rw [encode, List.append_assoc, List.singleton_append, decode_preBytes rfl]
    rfl
  | pushRmRegister pre reg rm =>
    obtain rfl : reg = 6 := eq_of_beq h
    rw [encode, List.append_assoc]
    exact (decode_pushRm 3 rm pre rest).trans (decodeRm_register pre 6 rm rest)
  | pushRmDisp16 pre reg disp =>
    obtain rfl : reg = 6 := eq_of_beq h
    rw [encode, List.append_assoc]
    exact (decode_pushRm 0 6 pre _).trans (decodeRm_disp16 pre 6 disp rest)
  | pushRmBaseIndex pre reg rm =>
    obtain ⟨rfl, hrm⟩ : reg = 6 ∧ rm ≠ 6 := by simpa [Instr.wellFormed] using h
    rw [encode, List.append_assoc]
    exact (decode_pushRm 0 rm pre rest).trans (decodeRm_baseIndex pre 6 hrm rest)
  | pushRmBaseIndexDisp8 pre reg rm disp =>
    obtain rfl : reg = 6 := eq_of_beq h
    rw [encode, List.append_assoc]
    exact (decode_pushRm 1 rm pre _).trans (decodeRm_baseIndexDisp8 pre 6 rm disp rest)
  | pushRmBaseIndexDisp16 pre reg rm disp =>
    obtain rfl : reg = 6 := eq_of_beq h
    rw [encode, List.append_assoc]
    exact (decode_pushRm 2 rm pre _).trans (decodeRm_baseIndexDisp16 pre 6 rm disp rest)

/-- Settles O2: each form's bytes decode to it. -/
theorem decodeEncodeRoundTrip : Obligations.DecodeEncodeRoundTrip :=
  fun _ rest h => decode_encode h rest

/-- Settles O3: what the decoder reads is spelled by the bytes read. -/
theorem decodedBytesAreTheEncoding : Obligations.DecodedBytesAreTheEncoding :=
  fun _ _ _ h => decode_spells h

/-- Settles O1: each byte string is the encoding of its instruction. -/
theorem specWordsDecode : Obligations.SpecWordsDecode :=
  ⟨decode_encode (i := .pushSP none) rfl [],
    decode_encode (i := .pushCS none) rfl [],
    decode_encode (i := .pushf none) rfl [],
    decode_encode (i := .pushRmRegister none 6 4) rfl [],
    decode_encode (i := .pushRmDisp16 none 6 0x1234) rfl [],
    decode_encode (i := .pushRmBaseIndex none 6 0) rfl [],
    decode_encode (i := .pushRmBaseIndexDisp8 none 6 6 0xFE) rfl [],
    decode_encode (i := .pushRmBaseIndexDisp16 none 6 7 0x0100) rfl [],
    decode_encode (i := .pushRmDisp16 (some .cs) 6 0) rfl []⟩

/-! ### An override before any push (R72) -/

/-- An instruction's override is the first byte of its encoding, and the rest does not depend on it. -/
theorem encode_withPre (pre : Option SegReg) (i : Instr) :
    encode (withPre pre i) = preBytes pre ++ encode (withPre none i) := by
  cases i <;> rfl

theorem withPre_preOf (i : Instr) : withPre (preOf i) i = i := by
  cases i <;> rfl

theorem wellFormed_withPre (pre : Option SegReg) (i : Instr) :
    (withPre pre i).wellFormed = i.wellFormed := by
  cases i <;> rfl

/-- An override byte before an instruction that has none is read as that instruction's. -/
theorem decode_override_encode {i : Instr} (h : i.wellFormed = true) (hpre : preOf i = none)
    (r : SegReg) (rest : List Byte) :
    decode (overrideByte r :: (encode i ++ rest)) = .ok (withPre (some r) i, rest) := by
  have hbytes : encode (withPre (some r) i) = overrideByte r :: encode i := by
    rw [encode_withPre, ← hpre, withPre_preOf, preBytes, List.singleton_append]
  rw [← List.cons_append, ← hbytes]
  exact decode_encode ((wellFormed_withPre _ i).trans h) rest

/-- Settles O6: the four override bytes are those of the four segment registers. -/
theorem overrideAcceptedBeforeAnyPush : Obligations.OverrideAcceptedBeforeAnyPush :=
  fun _ rest h hpre => ⟨decode_override_encode h hpre .es rest, decode_override_encode h hpre .cs rest,
    decode_override_encode h hpre .ss rest, decode_override_encode h hpre .ds rest⟩

end Sys2Proof
end

section
/-! The dispatch table (30_encoding.md R73) and what is routed nowhere (R77). -/

namespace Sys2Proof

/-! ### The table -/

/-- The bytes R73 routes to each handler, `reg` being the ModRM register field. -/
abbrev Routed (op : Byte) (reg : BitVec 3) : Handler → Prop
  | .pushR => 0x50 ≤ op.toNat ∧ op.toNat ≤ 0x57
  | .pushSr => op = 0x06 ∨ op = 0x0E ∨ op = 0x16 ∨ op = 0x1E
  | .pushf => op = 0x9C
  | .pushRm => op = 0xFF ∧ reg = 6

/-- The register field is looked at for opcode 0xFF only. -/
theorem dispatch_of_ne_ff {op : Byte} (h : op ≠ 0xFF) (reg : BitVec 3) :
    dispatch op reg = dispatch op 0 := by
  simp only [dispatch, h, false_and]

theorem routed_of_ne_ff {op : Byte} (h : op ≠ 0xFF) (reg : BitVec 3) (handler : Handler) :
    Routed op reg handler ↔ Routed op 0 handler := by
  cases handler <;> simp only [Routed, h, false_and]

/-- The dispatch routes to each handler exactly the bytes of the table: by evaluation over the register
field for 0xFF, and over the other opcodes, where that field is not looked at. -/
theorem dispatch_eq_some_iff (op : Byte) (reg : BitVec 3) (handler : Handler) :
    dispatch op reg = some handler ↔ Routed op reg handler := by
  by_cases hff : op = 0xFF
  · subst hff
    cases handler <;> revert reg <;> decide
  · rw [dispatch_of_ne_ff hff, routed_of_ne_ff hff]
    cases handler <;> revert op <;> decide

/-- A byte no row of the table has is routed nowhere. -/
theorem dispatch_eq_none_iff (op : Byte) (reg : BitVec 3) :
    dispatch op reg = none ↔ ∀ handler, ¬ Routed op reg handler := by
  simp only [Option.eq_none_iff_forall_ne_some, ne_eq, dispatch_eq_some_iff]

/-! ### Refusals -/

/-- An opcode byte other than 0xFF that is routed nowhere is refused, whatever follows it. -/
theorem decodeOpcode_unrouted {op : Byte} (hprefix : isPrefixByte op = false) (hff : op ≠ 0xFF)
    (h : dispatch op 0 = none) (pre : Option SegReg) (rest : List Byte) :
    decodeOpcode pre (op :: rest) = .error .notPushFamily := by
  simp only [decodeOpcode, hprefix, hff, h, Bool.false_eq_true, if_false]

/-- 0xFF with a register field other than 6 is refused (R76). -/
theorem decodeOpcode_ff_unrouted {b : Byte} (h : dispatch 0xFF (modRmOfByte b).reg = none)
    (pre : Option SegReg) (rest : List Byte) :
    decodeOpcode pre (0xFF :: b :: rest) = .error .notPushFamily := by
  have hprefix : isPrefixByte 0xFF = false := rfl
  simp only [decodeOpcode, hprefix, h, Bool.false_eq_true, if_false, if_true]

/-- Settles O4: the table row by row, and the two ways to be routed nowhere. -/
theorem dispatchTable : Obligations.DispatchTable := by
  refine ⟨fun op reg => ⟨dispatch_eq_some_iff op reg .pushR, dispatch_eq_some_iff op reg .pushSr,
    dispatch_eq_some_iff op reg .pushf, dispatch_eq_some_iff op reg .pushRm⟩,
    fun pre op b rest hprefix hnone => ?unrouted⟩
  rw [decode_preBytes (overrideOfByte_of_not_prefix hprefix)]
  by_cases hff : op = 0xFF
  · subst hff
    exact decodeOpcode_ff_unrouted hnone pre rest
  · rw [dispatch_of_ne_ff hff] at hnone
    exact decodeOpcode_unrouted hprefix hff hnone pre (b :: rest)

/-- A byte outside the table's opcodes is routed nowhere. -/
theorem dispatch_of_outside {op : Byte} (hr : ¬ (0x50 ≤ op.toNat ∧ op.toNat ≤ 0x57))
    (hop : op ∉ ([0x06, 0x0E, 0x16, 0x1E, 0x9C, 0xFF] : List Byte)) (reg : BitVec 3) :
    dispatch op reg = none := by
  rw [dispatch_eq_none_iff]
  simp only [List.mem_cons, List.not_mem_nil, or_false, not_or] at hop
  obtain ⟨hes, hcs, hss, hds, hflags, hff⟩ := hop
  intro handler
  cases handler with
  | pushRm => exact fun h => hff h.1
  | pushR => exact hr
  | pushSr =>
    rintro (h | h | h | h)
    exacts [hes h, hcs h, hss h, hds h]
  | pushf => exact hflags

/-- Settles O5: a byte outside the table is routed nowhere, as is 0xFF with another register field; a LOCK,
a repeat or a second override stands where the opcode is expected. -/
theorem refusedEncodings : Obligations.RefusedEncodings := by
  intro pre op b rest
  refine ⟨fun hr hop hprefix => ?outside, fun hreg => ?field, fun hop => ?lockOrRepeat,
    fun hpre hop => ?second⟩
  case outside =>
    rw [← isPrefixByte_iff, Bool.not_eq_true] at hprefix
    rw [decode_preBytes (overrideOfByte_of_not_prefix hprefix)]
    have hff : op ≠ 0xFF := fun h => hop (by simp [h])
    exact decodeOpcode_unrouted hprefix hff (dispatch_of_outside hr hop 0) pre rest
  case field =>
    have hnone : ∀ reg : BitVec 3, reg ≠ 6 → dispatch 0xFF reg = none := by decide
    rw [decode_preBytes rfl, decodeOpcode_ff_unrouted (hnone _ hreg)]
  case lockOrRepeat =>
    have hbyte : ∀ op ∈ ([0xF0, 0xF2, 0xF3] : List Byte),
        overrideOfByte op = none ∧ isPrefixByte op = true := by decide
    obtain ⟨hnone, hprefix⟩ := hbyte op hop
    rw [decode_preBytes hnone, decodeOpcode_prefixByte hprefix]
  case second =>
    have hbyte : ∀ op ∈ ([0x26, 0x2E, 0x36, 0x3E] : List Byte), isPrefixByte op = true := by decide
    obtain ⟨r, rfl⟩ := Option.ne_none_iff_exists'.mp hpre
    exact (decode_override r _).trans (decodeOpcode_prefixByte (hbyte op hop) _ rest)

end Sys2Proof
end

section
/-! What the encodings mean to the block and to the sequencer: the opcode bits a handler reads (30_encoding.md
R64), two encodings of one push (R79), the length a step moves IP by (R75), and a step's refusals (R77). -/

namespace Sys2Proof.Machine

open Sys2Proof.Statements

/-! ### An invocation depends on its input through its source alone -/

theorem invoke_eq_of_source {R R' : Resolver} {inv inv' : Invocation} {s : State}
    (h : source R inv s = source R' inv' s) : invoke R inv s = invoke R' inv' s := by
  rw [invoke, invoke, h]

theorem opcodeGprField_eq {op op' : Byte} (h : op.toNat % 8 = op'.toNat % 8) :
    opcodeGprField op = opcodeGprField op' := by
  apply BitVec.eq_of_toNat_eq
  simpa [opcodeGprField] using h

theorem opcodeSegField_eq {op op' : Byte} (h : op.toNat / 8 % 4 = op'.toNat / 8 % 4) :
    opcodeSegField op = opcodeSegField op' := by
  apply BitVec.eq_of_toNat_eq
  simpa [opcodeSegField, Nat.shiftRight_eq_div_pow] using h

/-- Settles O27: equal fields name one register, and `pushf` names none. -/
theorem handlersReadOnlyTheirField : Obligations.HandlersReadOnlyTheirField := by
  refine fun R op op' s => ⟨fun h => invoke_eq_of_source ?gpr, fun h => invoke_eq_of_source ?seg,
    invoke_eq_of_source rfl⟩
  case gpr => rw [source, source, opcodeGprField_eq h]
  case seg => rw [source, source, opcodeSegField_eq h]

/-! ### Two encodings of one push (R79) -/

/-- The eight register indices. -/
theorem gprIndex_cases (k : BitVec 3) :
    k = 0 ∨ k = 1 ∨ k = 2 ∨ k = 3 ∨ k = 4 ∨ k = 5 ∨ k = 6 ∨ k = 7 := by
  revert k
  decide

/-- The numbered register, through the register file port. -/
theorem readReg_gprOfIndex (r : RegFile) (k : BitVec 3) :
    readReg r (.gpr (gprOfIndex k)) = gprNumbered r k := by
  obtain rfl | rfl | rfl | rfl | rfl | rfl | rfl | rfl := gprIndex_cases k <;> rfl

/-- The `push r` of register `k` is an invocation of `PUSH_R` with register field `k` (R100). -/
theorem invocationOf_pushRRow (k : BitVec 3) (pre : Option SegReg) :
    invocationOf (pushRRow k pre) = .pushR (0x50 + k.setWidth 8) := by
  obtain rfl | rfl | rfl | rfl | rfl | rfl | rfl | rfl := gprIndex_cases k <;> rfl

/-- The source of `push r` is its numbered register (R101). -/
theorem source_pushRRow (R : Resolver) (k : BitVec 3) (pre : Option SegReg) (s : State) :
    source R (invocationOf (pushRRow k pre)) s = .ok (gprNumbered s.regs k) := by
  have hfield : ∀ k : BitVec 3, opcodeGprField (0x50 + k.setWidth 8) = k := by decide
  rw [invocationOf_pushRRow, source, hfield, readReg_gprOfIndex]

/-- The source of the register form of `push r/m` is its numbered register (R82). -/
theorem source_pushRmRegister (pre : Option SegReg) (rm : BitVec 3) (s : State) :
    source resolve8086 (invocationOf (.pushRmRegister pre 6 rm)) s = .ok (gprNumbered s.regs rm) := by
  rw [invocationOf, source_pushRm rfl, resolve8086_register rfl, operandRead_reg, readReg_gprOfIndex]

/-- Settles O18: the two encodings decode to their rows, whose sources are the same register. -/
theorem twoEncodingsOfOnePush : Obligations.TwoEncodingsOfOnePush := by
  refine fun k pre pre' rest => ⟨decode_pushR k pre rest, ?register, fun s => ?same,
    fun s hinv hstack => completes_of_source hinv hstack (source_pushRRow _ k pre s)⟩
  case register =>
    have hbyte : ∀ k : BitVec 3, 0xF0 + k.setWidth 8 = modRmByte ⟨3, 6, k⟩ := by decide
    rw [hbyte, decode_pushRm, decodeRm_register]
  case same =>
    rw [exec_eq_invoke, exec_eq_invoke]
    exact invoke_eq_of_source ((source_pushRRow _ k pre s).trans (source_pushRmRegister pre' k s).symm)

/-! ### The step (R75, R77) -/

/-- The length table, an override counting one more. -/
theorem instrLength_eq (i : Instr) :
    instrLength i = (if (preOf i).isSome then 1 else 0) + formLength i := by
  have hpre : ∀ pre : Option SegReg, preLength pre = if pre.isSome then 1 else 0 := by
    rintro (_ | _) <;> rfl
  rw [← hpre]
  cases i <;> rfl

/-- Settles O37: the instruction leaves IP alone, and retiring it adds its length modulo 2^16. -/
theorem stepAdvancesIpByTheLengthTable : Obligations.StepAdvancesIpByTheLengthTable := by
  intro s t h
  obtain ⟨-, i, rest, u, hd, hu, rfl⟩ := step_next h
  refine ⟨i, rest, hd, ?_⟩
  rw [exec_next_ip hu, BitVec.toNat_add, BitVec.toNat_ofNat, Nat.add_mod_mod, instrLength_eq,
    Nat.add_assoc]

/-- A running state whose bytes are refused: the step is the refusal, under the decoder's reason. -/
theorem step_undecoded {s : State} {e : DecodeError} (h : s.Running)
    (hd : decode (fetched s) = .error e) : step s = refuse (refusalReason s e) s := by
  rw [step_running h, hd]

/-- Settles O39: the refusal sets its mark and nothing else. -/
theorem stepRefusesByReason : Obligations.StepRefusesByReason :=
  fun _ hrun => ⟨fun hd => step_undecoded hrun hd, fun hd => step_undecoded hrun hd⟩

end Sys2Proof.Machine
end

section
/-! Operand resolution of `push r/m` (40_operand_resolution.md R82 to R92): the register form, the offset and
segment tables, the segment override, what a memory operand does not depend on, and the block over any lawful
resolver. -/

namespace Sys2Proof.Machine

open Sys2Proof.Statements

/-! ### The register form (R82) -/

/-- An instruction whose source resolves and whose stack write is not admitted stops in that write. -/
theorem writeFaults_of_source {i : Instr} {s : State} {v : Word} (hstack : ¬ StackWritable s)
    (hsrc : source resolve8086 (invocationOf i) s = .ok v) : WriteFaults i s :=
  exec_eq_fault_iff.mpr (.inr ⟨v, hsrc, Bool.eq_false_of_not_eq_true hstack, rfl⟩)

/-- Settles O19: the source is the numbered register, and never fails. -/
theorem pushRmRegisterRule : Obligations.PushRmRegisterRule :=
  fun pre rm s hinv =>
    ⟨fun hstack => completes_of_source hinv hstack (source_pushRmRegister pre rm s),
      fun hstack => writeFaults_of_source hstack (source_pushRmRegister pre rm s)⟩

/-! ### The offset and segment tables (R83 to R85) -/

/-- Without an override, a memory operand that is not the direct address is the table's. -/
theorem resolve8086_table {m : ModRm} (hmem : m.mod ≠ 0b11) (h : ¬ (m.mod = 0 ∧ m.rm = 6)) (d : Disp)
    (r : RegFile) :
    resolve8086 m d none r = .mem (defaultSegOf m.rm) (offsetTerms r m.rm + dispValue d) := by
  rw [resolve8086_memory hmem, baseTerms_eq_offsetTerms h, operandSeg, defaultSeg_eq_defaultSegOf h]

/-- Settles O21: the three tabled forms by the table, the direct address by its displacement alone. -/
theorem offsetAndSegmentTable : Obligations.OffsetAndSegmentTable := by
  intro reg rm d8 d16 r
  refine ⟨fun hrm => ?base, ?direct, ⟨_, ?disp8, BitVec.toNat_add _ _⟩,
    ⟨_, ?disp16, BitVec.toNat_add _ _⟩⟩
  case base =>
    rw [resolve8086_table (show (0 : BitVec 2) ≠ 3 by decide) (fun h => hrm h.2)]
    exact congrArg (Operand.mem _) (BitVec.add_zero _)
  case direct =>
    rw [resolve8086_memory (show (0 : BitVec 2) ≠ 3 by decide)]
    exact congrArg (Operand.mem .ds) (BitVec.zero_add d16)
  case disp8 =>
    exact resolve8086_table (m := ⟨1, reg, rm⟩) (show (1 : BitVec 2) ≠ 3 by decide)
      (fun h => absurd h.1 (show (1 : BitVec 2) ≠ 0 by decide)) (.d8 d8) r
  case disp16 =>
    exact resolve8086_table (m := ⟨2, reg, rm⟩) (show (2 : BitVec 2) ≠ 3 by decide)
      (fun h => absurd h.1 (show (2 : BitVec 2) ≠ 0 by decide)) (.d16 d16) r

/-! ### The segment override (R86) -/

/-- The source of an instruction that is no memory form is the same with any override or
none. -/
theorem source_withPre_of_not_memoryForm {i : Instr} (hi : isMemoryForm i = false) (p : Option SegReg)
    (s : State) :
    source resolve8086 (invocationOf (withPre p i)) s = source resolve8086 (invocationOf i) s := by
  cases i
  case pushRmRegister pre reg rm =>
    simp only [withPre, invocationOf, source, resolve8086_register (m := ⟨0b11, reg, rm⟩) rfl]
  case pushRmDisp16 => cases hi
  case pushRmBaseIndex => cases hi
  case pushRmBaseIndexDisp8 => cases hi
  case pushRmBaseIndexDisp16 => cases hi
  all_goals rfl

/-- Settles O22: the override is read in the segment of a memory operand alone; what a completed push
changes does not depend on the instruction. -/
theorem overrideMovesOnlyTheMemoryOperand : Obligations.OverrideMovesOnlyTheMemoryOperand := by
  refine ⟨by decide, fun m d r seg hmem => ?operand, fun i p s hi => ?other, fun i p s t hinv ht => ?frame⟩
  case operand =>
    exact ⟨_, _, resolve8086_memory hmem d none r, resolve8086_memory hmem d (some seg) r⟩
  case other =>
    rw [exec_eq_invoke, exec_eq_invoke]
    exact invoke_eq_of_source (source_withPre_of_not_memoryForm hi p s)
  case frame =>
    obtain ⟨v, rfl⟩ := exec_next_afterPush ht
    obtain ⟨hregs, -, -, hother, -⟩ := afterPush_pushed hinv v
    exact ⟨hregs, hother⟩

/-! ### SP and the memory operand (R92) -/

/-- A memory form is an invocation of `PUSH_RM` with a `mod` other than 11. -/
theorem invocationOf_memoryForm {i : Instr} (hi : isMemoryForm i = true) :
    ∃ m d pre, invocationOf i = .pushRm 0xFF m d pre ∧ m.mod ≠ 0b11 := by
  cases i
  case pushRmDisp16 pre reg disp => exact ⟨_, _, _, rfl, show (0 : BitVec 2) ≠ 3 by decide⟩
  case pushRmBaseIndex pre reg rm => exact ⟨_, _, _, rfl, show (0 : BitVec 2) ≠ 3 by decide⟩
  case pushRmBaseIndexDisp8 pre reg rm disp => exact ⟨_, _, _, rfl, show (1 : BitVec 2) ≠ 3 by decide⟩
  case pushRmBaseIndexDisp16 pre reg rm disp => exact ⟨_, _, _, rfl, show (2 : BitVec 2) ≠ 3 by decide⟩
  all_goals cases hi

/-- SP is no term of the offset table (R83). -/
theorem baseTerms_writeSp (m : ModRm) (r : RegFile) (x : Word) :
    baseTerms m (writeReg r (.gpr .sp) x) = baseTerms m r := rfl

/-- A memory operand does not look at SP: its segment register is another one, and so are its terms. -/
theorem source_withSp_of_memory {op : Byte} {m : ModRm} (hmem : m.mod ≠ 0b11) (d : Disp)
    (pre : Option SegReg) (s : State) (x : Word) :
    source resolve8086 (.pushRm op m d pre) (withReg (.gpr .sp) x s) =
      source resolve8086 (.pushRm op m d pre) s := by
  by_cases hreg : m.reg = 6
  · rw [source_memory hreg hmem, source_memory hreg hmem, withReg, ← readReg_seg,
      readReg_writeReg_other _ _ (by simp), readReg_seg, baseTerms_writeSp]
    rfl
  · rw [source_pushRm_violation hreg, source_pushRm_violation hreg]

/-- Settles O24: every memory form reads its operand through registers other than SP. -/
theorem memoryOperandIgnoresSp : Obligations.MemoryOperandIgnoresSp := by
  intro i s x hi
  obtain ⟨m, d, pre, hinvocation, hmem⟩ := invocationOf_memoryForm hi
  rw [hinvocation, source_withSp_of_memory hmem]

/-! ### Any lawful resolver (R90, R91) -/

/-- The reference resolver meets the contract. -/
theorem resolve8086_lawful : Resolver.Lawful resolve8086 :=
  fun _ d pre r => ⟨fun hmod => resolve8086_register hmod d pre r,
    fun hmod => ⟨_, _, resolve8086_memory hmod d pre r⟩⟩

/-- An invocation whose source resolves to `v` and whose stack write is admitted completes, and pushes
`v`. -/
theorem invoke_pushed {R : Resolver} {inv : Invocation} {s : State} {v : Word} (h : s.Inv)
    (hstack : StackWritable s) (hsrc : source R inv s = .ok v) :
    ∃ t, invoke R inv s = .next t ∧ Pushed s t v :=
  ⟨afterPush s v, (invoke_ok hsrc).trans (pushWord_admitted v hstack), afterPush_pushed h v⟩

/-- The source where the resolver names a register: its value, which the port never fails to give (R38). -/
theorem source_registerOperand {R : Resolver} {op : Byte} {m : ModRm} {d : Disp} {pre : Option SegReg}
    {s : State} {k : BitVec 3} (h6 : m.reg = 6) (hR : R m d pre s.regs = .reg (gprOfIndex k)) :
    source R (.pushRm op m d pre) s = .ok (gprNumbered s.regs k) := by
  rw [source_pushRm h6, hR, operandRead_reg, readReg_gprOfIndex]

/-- The source where the resolver names a memory word: one read, at the operand's address (R88). -/
theorem source_memoryOperand {R : Resolver} {op : Byte} {m : ModRm} {d : Disp} {pre : Option SegReg}
    {s : State} {seg : SegReg} {off : Word} (h6 : m.reg = 6) (hR : R m d pre s.regs = .mem seg off) :
    source R (.pushRm op m d pre) s = memRead s (phys s.cfg (segValue s.regs seg) off) := by
  rw [source_pushRm h6, hR, operandRead_mem, operandPa, readReg_seg]

/-- Settles O25: the contract fixes which kind of operand is read, and the read decides the push. -/
theorem anyLawfulResolver : Obligations.AnyLawfulResolver := by
  refine ⟨resolve8086_lawful, fun R hR op m d pre s h6 hinv hstack => ?_⟩
  obtain ⟨hregister, hmemory⟩ := hR m d pre s.regs
  refine ⟨fun hmod => ?register, fun hmod => ?memory⟩
  case register => exact invoke_pushed hinv hstack (source_registerOperand h6 (hregister hmod))
  case memory =>
    obtain ⟨seg, off, hoperand⟩ := hmemory hmod
    have hsrc := source_memoryOperand (op := op) h6 hoperand
    refine ⟨seg, off, hoperand, fun hread => ?admitted, fun hread => ?refused⟩
    case admitted => exact invoke_pushed hinv hstack (hsrc.trans (memRead_admitted hread))
    case refused => exact invoke_error (hsrc.trans (memRead_refused hread))

end Sys2Proof.Machine
end

section
/-! The push family by its rows (41_push.md R96 to R106): the one-byte rows, the memory forms of `push r/m`,
the postcondition they share, and the contract violation that precedes every other step. -/

namespace Sys2Proof.Machine

open Sys2Proof.Statements

/-! ### The one-byte rows (R100 to R106) -/

/-- A row whose byte is its instruction's encoding, and whose source is its register's value, with any
override or none, holds: it decodes, completes or faults in its stack write. -/
theorem rowHolds_of_source {row : PushRow} (hbyte : encode (row.instr none) = [row.opcode])
    (hwell : (row.instr none).wellFormed = true)
    (hsrc : ∀ pre s, source resolve8086 (invocationOf (row.instr pre)) s = .ok (row.value s.regs)) :
    RowHolds row := by
  refine ⟨fun rest => ?decodes, fun pre s hinv => ⟨fun hstack => ?completes, fun hstack => ?faults⟩⟩
  case decodes =>
    have hdecode := decode_encode hwell rest
    rwa [hbyte] at hdecode
  case completes => exact completes_of_source hinv hstack (hsrc pre s)
  case faults => exact writeFaults_of_source hstack (hsrc pre s)

/-- Settles O14: each row's byte is its encoding, and `opcode[2:0]` names its register. -/
theorem pushGprRule : Obligations.PushGprRule := by
  intro row hrow
  simp only [gprRows, List.mem_cons, List.not_mem_nil, or_false] at hrow
  obtain rfl | rfl | rfl | rfl | rfl | rfl | rfl | rfl := hrow <;>
    exact rowHolds_of_source rfl rfl fun _ _ => rfl

/-- Settles O15: each row's byte is its encoding, and `opcode[4:3]` names its segment register. -/
theorem pushSegRule : Obligations.PushSegRule := by
  intro row hrow
  simp only [segRows, List.mem_cons, List.not_mem_nil, or_false] at hrow
  obtain rfl | rfl | rfl | rfl := hrow <;> exact rowHolds_of_source rfl rfl fun _ _ => rfl

/-- Settles O16: the source of `pushf` is the whole of FLAGS. -/
theorem pushFlagsRule : Obligations.PushFlagsRule :=
  rowHolds_of_source rfl rfl fun _ _ => rfl

/-! ### The memory forms (R98) -/

/-- Settles O20: the source is the operand word wherever its read is admitted. -/
theorem pushRmMemoryRule : Obligations.PushRmMemoryRule := by
  intro pre rm d8 d16 f hf hwell s hinv hread
  have hsrc : source resolve8086 (invocationOf f.instr) s = .ok (loadWord s.cfg s.mem (f.pa s)) :=
    (source_memForm hf hwell s).trans (memRead_admitted hread)
  exact ⟨fun hstack => completes_of_source hinv hstack hsrc,
    fun hstack => writeFaults_of_source hstack hsrc⟩

/-! ### Every push (R97) -/

/-- Settles O26: an instruction that completes has pushed its source. -/
theorem everyPushPostcondition : Obligations.EveryPushPostcondition := by
  intro i s t hinv ht
  obtain ⟨v, hsrc, -, rfl⟩ := exec_eq_next_iff.mp ht
  exact ⟨v, hsrc, afterPush_pushed hinv v⟩

/-! ### The contract violation (R96, R112) -/

/-- A `PUSH_RM` invocation with another register field than 6 stops before any change. -/
theorem invoke_pushRm_violation (R : Resolver) (op : Byte) {m : ModRm} (h : m.reg ≠ 6) (d : Disp)
    (pre : Option SegReg) (s : State) :
    invoke R (.pushRm op m d pre) s = .fault (.contractViolation op m.reg
      { s with fault := some (.contractViolation op m.reg) }) :=
  invoke_error (source_pushRm_violation h)

/-- An operand read violates no contract: a register read never fails, and a memory read fails as a
read. -/
theorem operandRead_no_violation (s : State) (o : Operand) (op : Byte) (reg : BitVec 3) :
    operandRead s o ≠ .error (.contractViolation op reg) := by
  cases o with
  | reg g => exact nofun
  | mem seg off =>
    rw [operandRead_mem]
    rcases hread : memAdmits s.cfg (operandPa s seg off) 2 with _ | _
    · simp [memRead_refused hread]
    · simp [memRead_admitted hread]

/-- Only `PUSH_RM` raises the violation, with the opcode and register field it was handed, and only where
that field is not 6. -/
theorem source_violation {R : Resolver} {inv : Invocation} {s : State} {op : Byte} {reg : BitVec 3}
    (h : source R inv s = .error (.contractViolation op reg)) :
    reg ≠ 6 ∧ ∃ m d pre, inv = .pushRm op m d pre ∧ m.reg = reg := by
  cases inv with
  | pushRm op' m d pre =>
    by_cases hreg : m.reg = 6
    · rw [source_pushRm hreg] at h
      exact absurd h (operandRead_no_violation _ _ _ _)
    · rw [source_pushRm_violation hreg] at h
      cases h
      exact ⟨hreg, m, d, pre, rfl, rfl⟩
  | pushR op' => cases h
  | pushSr op' => cases h
  | pushf op' => cases h

/-- A well-formed instruction hands `PUSH_RM` register field 6 (R76). -/
theorem reg_of_wellFormed {i : Instr} (hwell : i.wellFormed = true) {op : Byte} {m : ModRm} {d : Disp}
    {pre : Option SegReg} (h : invocationOf i = .pushRm op m d pre) : m.reg = 6 := by
  cases i <;> cases h
  case pushRmBaseIndex => exact eq_of_beq (Bool.and_elim_left hwell)
  all_goals exact eq_of_beq hwell

/-- An instruction's contract violation comes from its source. -/
theorem source_of_exec_violation {i : Instr} {s left : State} {op : Byte} {reg : BitVec 3}
    (h : exec i s = .fault (.contractViolation op reg left)) :
    source resolve8086 (invocationOf i) s = .error (.contractViolation op reg) := by
  obtain ⟨c, hsrc, hfault⟩ | ⟨v, -, -, hfault⟩ := exec_eq_fault_iff.mp h
  · have hcause : FaultCause.contractViolation op reg = c :=
      (congrArg Fault.cause hfault).trans (faultOf_cause _ _)
    rw [hcause, hsrc]
  · cases hfault

/-- Settles O31: the precondition is the first thing the handler tests, nothing else raises the violation,
and the state it leaves has it recorded. -/
theorem contractViolationStopsFirst : Obligations.ContractViolationStopsFirst := by
  refine ⟨fun R op m d pre s hreg => invoke_pushRm_violation R op hreg d pre s,
    fun pre reg rm d8 d16 s hreg i hi => ?forms, fun i s left op reg h => ?raised⟩
  case forms =>
    simp only [List.mem_cons, List.not_mem_nil, or_false] at hi
    obtain rfl | rfl | rfl | rfl | rfl := hi <;>
      exact invoke_pushRm_violation resolve8086 0xFF (m := ⟨_, reg, _⟩) hreg _ pre s
  case raised =>
    obtain ⟨hreg, m, d, pre, hinvocation, rfl⟩ := source_violation (source_of_exec_violation h)
    have hill : i.wellFormed = false :=
      Bool.eq_false_of_not_eq_true fun hwell => hreg (reg_of_wellFormed hwell hinvocation)
    exact ⟨hill, hreg, rfl, step_left_of_recorded (exec_fault_recorded h)⟩

end Sys2Proof.Machine
end

section
/-! The faults (60_exceptions.md R113 to R131): what the source can fail with, the order in which a push's
steps fault, what each fault leaves, and what is no fault. -/

namespace Sys2Proof.Machine

open Sys2Proof.Statements

/-! ### What the source can fail with (R112, R113) -/

theorem memRead_error {s : State} {pa : Nat} {c : FaultCause} (h : memRead s pa = .error c) :
    c = .memRead pa 2 := by
  rcases hread : memAdmits s.cfg pa 2 with _ | _
  · rw [memRead_refused hread] at h
    exact (Except.error.inj h).symm
  · rw [memRead_admitted hread] at h
    cases h

/-- An operand read fails for a memory operand alone, as a read of its word. -/
theorem operandRead_error {s : State} {o : Operand} {c : FaultCause} (h : operandRead s o = .error c) :
    ∃ seg off, o = .mem seg off ∧ c = .memRead (operandPa s seg off) 2 := by
  cases o with
  | reg g => cases h
  | mem seg off => exact ⟨seg, off, rfl, memRead_error h⟩

/-- Every way a source fails: in `PUSH_RM` alone, on the register field, or on the read of a memory
operand's word. -/
theorem source_error {R : Resolver} {inv : Invocation} {s : State} {c : FaultCause}
    (h : source R inv s = .error c) :
    ∃ op m d pre, inv = .pushRm op m d pre ∧
      (c = .contractViolation op m.reg ∨
        ∃ seg off, R m d pre s.regs = .mem seg off ∧ c = .memRead (operandPa s seg off) 2) := by
  cases inv with
  | pushRm op m d pre =>
    refine ⟨op, m, d, pre, rfl, ?_⟩
    by_cases hreg : m.reg = 6
    · rw [source_pushRm hreg] at h
      exact .inr (operandRead_error h)
    · rw [source_pushRm_violation hreg] at h
      exact .inl (Except.error.inj h).symm
  | pushR op => cases h
  | pushSr op => cases h
  | pushf op => cases h

/-- No source fails as a write: the stack write is a later step (R93). -/
theorem source_ne_memWrite {R : Resolver} {inv : Invocation} {s : State} (pa size : Nat) :
    source R inv s ≠ .error (.memWrite pa size) := by
  intro h
  obtain ⟨op, m, d, pre, -, hc | ⟨seg, off, -, hc⟩⟩ := source_error h
  · cases hc
  · cases hc

/-- A fault that is no write fault comes from the source, before any change. -/
theorem source_of_exec_fault {i : Instr} {s : State} {f : Fault} (h : exec i s = .fault f)
    (hf : ∀ pa size, f.cause ≠ .memWrite pa size) :
    source resolve8086 (invocationOf i) s = .error f.cause := by
  obtain ⟨c, hsrc, rfl⟩ | ⟨v, -, -, rfl⟩ := exec_eq_fault_iff.mp h
  · rw [hsrc, faultOf_cause]
  · exact absurd (faultOf_cause _ _) (hf _ _)

/-! ### The read fault (R113) -/

/-- `PUSH_RM` with a `mod` other than 11 is the invocation of a memory form alone. -/
theorem isMemoryForm_of_invocationOf {i : Instr} {op : Byte} {m : ModRm} {d : Disp}
    {pre : Option SegReg} (h : invocationOf i = .pushRm op m d pre) (hmem : m.mod ≠ 0b11) :
    isMemoryForm i = true := by
  cases i <;> cases h
  case pushRmRegister => exact absurd rfl hmem
  all_goals rfl

/-- A read fault is a memory form's, on its operand word of two bytes. -/
theorem memoryForm_of_readFault {i : Instr} {s left : State} {pa size : Nat}
    (h : exec i s = .fault (.memReadFault pa size left)) : isMemoryForm i = true ∧ size = 2 := by
  have hsrc : source resolve8086 (invocationOf i) s = .error (.memRead pa size) :=
    source_of_exec_fault h fun _ _ => FaultCause.noConfusion
  obtain ⟨op, m, d, pre, hinvocation, hc | ⟨seg, off, hoperand, hc⟩⟩ := source_error hsrc
  · cases hc
  · cases hc
    refine ⟨isMemoryForm_of_invocationOf hinvocation fun hmod => ?_, rfl⟩
    rw [resolve8086_register hmod] at hoperand
    cases hoperand

/-- Settles O32: the source of a memory form is the read, which fails before SP moves; no other source can
fail so. -/
theorem readFaultChangesNothing : Obligations.ReadFaultChangesNothing := by
  refine ⟨fun pre rm d8 d16 f hf hwell s hread => ?refused, fun i s left pa size h => ?raised⟩
  case refused =>
    exact exec_eq_fault_iff.mpr
      (.inl ⟨_, (source_memForm hf hwell s).trans (memRead_refused hread), rfl⟩)
  case raised =>
    obtain ⟨hform, hsize⟩ := memoryForm_of_readFault h
    exact ⟨hform, hsize, rfl⟩

/-! ### The write fault (R114) -/

/-- A write fault is the stack write's: not admitted, with SP moved. -/
theorem stackWrite_of_writeFault {i : Instr} {s left : State} {pa size : Nat}
    (h : exec i s = .fault (.memWriteFault pa size left)) :
    ¬ StackWritable s ∧ pa = stackPa s ∧ size = 2 ∧
      left = { decrementSp s with fault := some (.memWrite (stackPa s) 2) } := by
  obtain ⟨c, hsrc, hfault⟩ | ⟨v, -, hstack, hfault⟩ := exec_eq_fault_iff.mp h
  · have hcause : FaultCause.memWrite pa size = c :=
      (congrArg Fault.cause hfault).trans (faultOf_cause _ _)
    exact absurd (hcause ▸ hsrc) (source_ne_memWrite pa size)
  · cases hfault
    exact ⟨ne_true_of_eq_false hstack, rfl, rfl, rfl⟩

/-- Settles O33: past its source a push has only the stack write left, and a write fault is that one. -/
theorem writeFaultLeavesSpMoved : Obligations.WriteFaultLeavesSpMoved := by
  refine fun i s => ⟨fun v hsrc hstack => writeFaults_of_source hstack hsrc, fun pa size left h => ?_⟩
  obtain ⟨hstack, hpa, hsize, rfl⟩ := stackWrite_of_writeFault h
  exact ⟨hstack, hpa, hsize, rfl, decrementSp_regs_spMoved s, decrementSp_mem s, decrementSp_ip s⟩

/-! ### The order of the faults (R119) -/

/-- Settles O34: a failed source is the fault, whatever the stack write would be; only a resolved source
and an admitted write complete; the register field is tested before the operand is read. -/
theorem faultsComeInStepOrder : Obligations.FaultsComeInStepOrder := by
  refine ⟨fun i s c hsrc => ?source, fun i s => ⟨?sound, ?complete⟩,
    fun op m d pre s hreg R => source_pushRm_violation hreg⟩
  case source =>
    exact ⟨_, exec_eq_fault_iff.mpr (.inl ⟨c, hsrc, rfl⟩), faultOf_cause _ _, faultOf_left _ _⟩
  case sound =>
    rintro ⟨t, ht⟩
    obtain ⟨v, hsrc, hstack, -⟩ := exec_eq_next_iff.mp ht
    exact ⟨⟨v, hsrc⟩, hstack⟩
  case complete =>
    rintro ⟨⟨v, hsrc⟩, hstack⟩
    exact ⟨afterPush s v, exec_eq_next_iff.mpr ⟨v, hsrc, hstack, rfl⟩⟩

/-! ### SP wraparound (R115) -/

/-- A push whose source resolves and whose stack word, at offset `x` of SS, is admitted completes with SP
at `x` and its word there. -/
theorem exec_next_at {i : Instr} {s : State} {v x : Word} (h : s.Inv)
    (hsrc : source resolve8086 (invocationOf i) s = .ok v) (hx : s.regs.sp - 2 = x)
    (hstack : memAdmits s.cfg (phys s.cfg s.regs.ss x) 2 = true) :
    ∃ t, exec i s = .next t ∧ t.regs.sp = x ∧
      Memory.read t.mem (phys s.cfg s.regs.ss x) = lowByte v ∧
      Memory.read t.mem (nextPa s.cfg (phys s.cfg s.regs.ss x)) = highByte v := by
  subst hx
  obtain ⟨t, ht, hregs, hlow, hhigh, -⟩ := completes_of_source h hstack hsrc
  exact ⟨t, ht, congrArg RegFile.sp hregs, hlow, hhigh⟩

/-- Settles O28: `0 - 2` and `1 - 2` modulo 2^16 are the top two offsets, and the push is as any other. -/
theorem spWrapIsNoFault : Obligations.SpWrapIsNoFault := by
  refine fun i s v h hsrc => ⟨fun hsp hstack => ?zero, fun hsp hstack => ?one⟩
  case zero => exact exec_next_at h hsrc (by rw [hsp]; rfl) hstack
  case one => exact exec_next_at h hsrc (by rw [hsp]; rfl) hstack

/-! ### The contract violation and the fault classes (R118, R130, R131) -/

/-- A run that has ended well has both marks clear (R137). -/
theorem running_of_endsWell {l : Launch} {s : State} (h : l.endsWell s = true) : s.Running := by
  simp only [Launch.endsWell, Bool.and_eq_true, Option.isNone_iff_eq_none] at h
  obtain ⟨⟨-, hfault⟩, hrefused⟩ := h
  exact ⟨hfault, hrefused⟩

/-- Settles O41: the violation needs an ill-formed instruction, and the decoder gives none; an end that is
well tests both marks. -/
theorem referenceDispatchNeverViolates : Obligations.ReferenceDispatchNeverViolates := by
  refine ⟨fun s left op reg hnone h => ?violation, fun l s h => running_of_endsWell h⟩
  case violation =>
    obtain ⟨c, hc, -⟩ | ⟨-, i, rest, hd, hexec⟩ := step_fault h
    · rw [hnone] at hc
      cases hc
    · obtain ⟨-, -, hraised⟩ := contractViolationStopsFirst
      obtain ⟨hill, -⟩ := hraised i s left op reg hexec
      obtain ⟨hwell, -⟩ := decode_spells hd
      rw [hwell] at hill
      cases hill

/-- Settles O35: the three causes' faults, codes and classes, case by case. -/
theorem faultCodes : Obligations.FaultCodes :=
  fun _ _ _ _ => ⟨⟨rfl, rfl, rfl⟩, ⟨rfl, rfl, rfl⟩, ⟨rfl, rfl, rfl⟩⟩

end Sys2Proof.Machine
end

section
/-! Hazards and runs (70_reset_and_hazards.md R132 to R139): a push of SP, a push whose operand overlaps its
stack word, a launch, and pushes in a row. -/

namespace Sys2Proof.Machine

open Sys2Proof.Statements

/-! ### The old SP (R138) -/

/-- Settles O17: both encodings are the spec's, and the source of each is SP before its decrement. -/
theorem pushSpPushesOldSp : Obligations.PushSpPushesOldSp :=
  ⟨decode_encode (i := .pushSP none) rfl [], decode_encode (i := .pushRmRegister none 6 4) rfl [],
    fun pre s hinv hstack =>
      ⟨completes_of_source hinv hstack (source_pushRRow resolve8086 4 pre s),
        completes_of_source hinv hstack (source_pushRmRegister pre 4 s)⟩⟩

/-! ### An operand that overlaps the stack word (R139) -/

/-- Storing the word a canonical memory already holds changes nothing. -/
theorem storeWord_loadWord {m : Memory} (h : Memory.wf m) (c : Config) (pa : Nat) :
    storeWord c m pa (loadWord c m pa) = m := by
  refine canonicalMemoriesReadAlikeAreEqual _ _ (storeWord_wf h c pa _) h fun a => ?_
  rw [read_storeWord h, loadWord, highByte_wordOfBytes, lowByte_wordOfBytes]
  split
  · next hhigh => rw [hhigh]
  · split
    · next hlow => rw [hlow]
    · rfl

/-- A push of the word its stack slot already holds moves SP and changes nothing else. -/
theorem afterPush_loadWord {s : State} (h : s.Inv) :
    afterPush s (loadWord s.cfg s.mem (stackPa s)) = { s with regs := spMoved s.regs } := by
  obtain ⟨-, hwf, -⟩ := h
  have hmem : storeWord s.cfg s.mem (pushAddr s) (loadWord s.cfg s.mem (stackPa s)) = s.mem :=
    storeWord_loadWord hwf s.cfg (stackPa s)
  rw [afterPush, hmem, decrementSp]
  rfl

/-- Settles O23: the word pushed is the one memory held before, so its two bytes stand in the stack word,
wherever the operand is. -/
theorem overlappingOperandReadsOldBytes : Obligations.OverlappingOperandReadsOldBytes := by
  intro pre rm d8 d16 f hf hwell s hinv hread hstack
  have hsrc : source resolve8086 (invocationOf f.instr) s = .ok (loadWord s.cfg s.mem (f.pa s)) :=
    (source_memForm hf hwell s).trans (memRead_admitted hread)
  obtain ⟨-, hlow, hhigh, -⟩ := afterPush_pushed hinv (loadWord s.cfg s.mem (f.pa s))
  have hlow := hlow.trans (lowByte_wordOfBytes _ _)
  have hhigh := hhigh.trans (highByte_wordOfBytes _ _)
  refine ⟨afterPush s (loadWord s.cfg s.mem (f.pa s)), exec_eq_next_iff.mpr ⟨_, hsrc, hstack, rfl⟩,
    fun hslot => ?slot, fun habove => ⟨hlow, ?above⟩, fun hbelow => ⟨hlow, ?below⟩⟩
  case slot => rw [hslot, afterPush_loadWord hinv]
  case above => exact (congrArg _ habove).trans hhigh
  case below => exact hhigh.trans (congrArg _ hbelow)

/-! ### A launch (R137) -/

/-- An offset `n` bytes on, short of the segment's end, is `n` bytes on in physical memory too. -/
theorem phys_add (c : Config) (seg : Word) {off : Word} {n : Nat} (h : off.toNat + n < 0x10000) :
    phys c seg (off + BitVec.ofNat 16 n) = (phys c seg off + n) % 2 ^ c.paWidth := by
  have hoff : (off + BitVec.ofNat 16 n).toNat = off.toNat + n := by
    rw [BitVec.toNat_add, BitVec.toNat_ofNat, Nat.add_mod_mod, Nat.mod_eq_of_lt h]
  rw [phys_eq, phys_eq, hoff, Nat.mod_add_mod, Nat.add_assoc]

/-- Offsets in a row that neither pass the segment's end nor outnumber the physical addresses name distinct
ones. -/
theorem codePa_distinct_of_le {s : State} {off : Word} {len : Nat} (hoff : off.toNat + len ≤ 0x10000)
    (hlen : len ≤ 2 ^ s.cfg.paWidth) {j k : Nat} (hjk : j < k) (hk : k < len) :
    codePa s (off + BitVec.ofNat 16 j) ≠ codePa s (off + BitVec.ofNat 16 k) := by
  rw [codePa, codePa, phys_add _ _ (by omega), phys_add _ _ (by omega)]
  intro heq
  have hmod : j % 2 ^ s.cfg.paWidth = k % 2 ^ s.cfg.paWidth := Nat.ModEq.add_left_cancel' _ heq
  rw [Nat.mod_eq_of_lt (by omega), Nat.mod_eq_of_lt (by omega)] at hmod
  omega

/-- Settles O44: the two branches of the launch; a placed program's bytes go to distinct addresses, and
each is read back at its own. -/
theorem launchPlacesTheProgram : Obligations.LaunchPlacesTheProgram := by
  refine fun l => ⟨fun hwrap => if_neg (Nat.not_le.mpr hwrap), fun hfits => ⟨_, if_pos hfits,
    placeCode_regs _ _ _, placeCode_ip _ _ _, placeCode_cfg _ _ _,
    ⟨placeCode_fault _ _ _, placeCode_refused _ _ _⟩, fun hwf hlen n b hb => ?placed⟩⟩
  obtain ⟨hn, -⟩ := List.getElem?_eq_some_iff.mp hb
  rw [← phys_add l.cfg l.regs.cs (by omega)]
  exact read_placeCode (s := l.bare) hwf (fun j k hjk hk => codePa_distinct_of_le hfits hlen hjk hk) hb

/-! ### Pushes in a row (R135) -/

/-- The source of a well-formed instruction that reads no memory resolves: the two ways a source fails are
the register field and a memory operand. -/
theorem source_ok_of_not_memoryForm {i : Instr}
    (hi : i.wellFormed = true ∧ isMemoryForm i = false) (s : State) :
    ∃ v, source resolve8086 (invocationOf i) s = .ok v := by
  obtain ⟨hwell, hform⟩ := hi
  rcases hsrc : source resolve8086 (invocationOf i) s with c | v
  · obtain ⟨op, m, d, pre, hinvocation, rfl | ⟨seg, off, hoperand, -⟩⟩ := source_error hsrc
    · exact absurd (reg_of_wellFormed hwell hinvocation) (source_violation hsrc).1
    · have hmod : m.mod = 0b11 := by
        by_contra hmem
        exact Bool.false_ne_true (hform.symm.trans (isMemoryForm_of_invocationOf hinvocation hmem))
      rw [resolve8086_register hmod] at hoperand
      cases hoperand
  · exact ⟨v, rfl⟩

/-- Counting down from a moved SP. -/
theorem sub_two_sub_ofNat (sp : Word) (k : Nat) :
    sp - 2 - BitVec.ofNat 16 (2 * k) = sp - BitVec.ofNat 16 (2 * (k + 1)) := by
  rw [Nat.mul_succ, BitVec.ofNat_add]
  bv_omega

/-- After a push, the stack word number `j` is the one that was number `j + 1`. -/
theorem stackPaOf_afterPush (s : State) (v : Word) (j : Nat) :
    stackPaOf (afterPush s v) j = stackPaOf s (j + 1) :=
  congrArg (phys s.cfg s.regs.ss) (sub_two_sub_ofNat s.regs.sp j)

/-- A row whose first stack word is admitted goes on from that push. -/
theorem pushAll_cons_admitted {i : Instr} {s : State} (is : List Instr)
    (hi : i.wellFormed = true ∧ isMemoryForm i = false) (hstack : StackWritable s) :
    ∃ v, pushAll (i :: is) s = pushAll is (afterPush s v) := by
  obtain ⟨v, hsrc⟩ := source_ok_of_not_memoryForm hi s
  have hexec : exec i s = .next (afterPush s v) := exec_eq_next_iff.mpr ⟨v, hsrc, hstack, rfl⟩
  exact ⟨v, by rw [pushAll, hexec]⟩

/-- A row whose first stack word is not admitted ends there. -/
theorem pushAll_cons_refused {i : Instr} {s : State} (is : List Instr)
    (hi : i.wellFormed = true ∧ isMemoryForm i = false) (hstack : ¬ StackWritable s) :
    pushAll (i :: is) s = .fault (.memWriteFault (stackPa s) 2
      { s with regs := spMoved s.regs, fault := some (.memWrite (stackPa s) 2) }) := by
  obtain ⟨v, hsrc⟩ := source_ok_of_not_memoryForm hi s
  have hexec : WriteFaults i s := writeFaults_of_source hstack hsrc
  rw [pushAll, hexec]

/-- A row whose stack words are all admitted completes, with SP one word lower for each push. -/
theorem pushAll_admitted {is : List Instr} {s : State} (h : s.Inv)
    (his : ∀ i ∈ is, i.wellFormed = true ∧ isMemoryForm i = false)
    (hadm : ∀ j, 1 ≤ j → j ≤ is.length → memAdmits s.cfg (stackPaOf s j) 2 = true) :
    ∃ t, pushAll is s = .next t ∧ t.Inv ∧
      t.regs = writeReg s.regs (.gpr .sp) (s.regs.sp - BitVec.ofNat 16 (2 * is.length)) := by
  induction is generalizing s with
  | nil => exact ⟨s, rfl, h, by simp [writeReg]⟩
  | cons i is ih =>
    obtain ⟨hi, his⟩ := List.forall_mem_cons.mp his
    have hstack : StackWritable s := hadm 1 (Nat.le_refl 1) (Nat.succ_pos _)
    obtain ⟨v, hfirst⟩ := pushAll_cons_admitted is hi hstack
    obtain ⟨t, ht, hinv, hregs⟩ := ih (s := afterPush s v) (afterPush_inv h v) his fun j _ hj => by
      rw [stackPaOf_afterPush]
      exact hadm (j + 1) (Nat.succ_pos j) (Nat.succ_le_succ hj)
    refine ⟨t, hfirst.trans ht, hinv, hregs.trans ?_⟩
    rw [List.length_cons, ← sub_two_sub_ofNat]
    rfl

/-- A row whose first stack word not admitted is number `n` ends in that push's write fault. -/
theorem pushAll_refused {is : List Instr} {s : State} {n : Nat}
    (his : ∀ i ∈ is, i.wellFormed = true ∧ isMemoryForm i = false) (hpos : 1 ≤ n) (hn : n ≤ is.length)
    (hadm : ∀ j, 1 ≤ j → j < n → memAdmits s.cfg (stackPaOf s j) 2 = true)
    (hrefused : memAdmits s.cfg (stackPaOf s n) 2 = false) :
    ∃ left, pushAll is s = .fault (.memWriteFault (stackPaOf s n) 2 left) ∧
      left.regs.sp = s.regs.sp - BitVec.ofNat 16 (2 * n) := by
  induction is generalizing s n with
  | nil => exact absurd (Nat.le_trans hpos hn) (Nat.not_succ_le_zero 0)
  | cons i is ih =>
    obtain ⟨hi, his⟩ := List.forall_mem_cons.mp his
    rcases n with _ | _ | k
    · exact absurd hpos (Nat.not_succ_le_zero 0)
    · have hstack : ¬ StackWritable s := ne_true_of_eq_false hrefused
      exact ⟨_, pushAll_cons_refused is hi hstack, rfl⟩
    · have hstack : StackWritable s := hadm 1 (Nat.le_refl 1) (Nat.succ_lt_succ (Nat.succ_pos k))
      obtain ⟨v, hfirst⟩ := pushAll_cons_admitted is hi hstack
      obtain ⟨left, hleft, hsp⟩ := ih (s := afterPush s v) (n := k + 1) his (Nat.succ_pos k)
        (Nat.le_of_succ_le_succ hn)
        (fun j _ hj => by
          rw [stackPaOf_afterPush]
          exact hadm (j + 1) (Nat.succ_pos j) (Nat.succ_lt_succ hj))
        (by rwa [stackPaOf_afterPush])
      rw [stackPaOf_afterPush] at hleft
      exact ⟨left, hfirst.trans hleft, hsp.trans (sub_two_sub_ofNat s.regs.sp (k + 1))⟩

/-- Settles O46, by induction on the list: the first push completes or is the fault, and the rest is a row
from the state it leaves. -/
theorem pushesInARow : Obligations.PushesInARow :=
  fun _ _ hinv his => ⟨pushAll_admitted hinv his, fun _ => pushAll_refused his⟩

end Sys2Proof.Machine
end
